-- ==== Sys2Proof/Word.lean ====
section
/-! DEFINITION. The machine's words: 8-bit bytes and 9-bit addresses (00_scope.md R7, R8, R12). -/

namespace Sys2Proof

/-- A register, a memory cell, an operand byte or an 8-bit address: unsigned, 8 bits (R12, R20, R50). -/
abbrev Byte := BitVec 8

/-- The program counter and the fault record's f_pc and f_info: unsigned, 9 bits (R29, R32). -/
abbrev PcWord := BitVec 9

/-- zext_9 of an 8-bit value (R12). -/
def Byte.toPc (v : Byte) : PcWord := v.setWidth 9

end Sys2Proof
end

