-- ==== Sys2Proof/Syntax.lean ====
section
/-! DEFINITION. The fifteen instructions, one constructor per row of spec/opcode_table.json, with the operand bytes as
the encoding holds them (30_encoding.md R72, R73, R76). -/

namespace Sys2Proof

/-- The index of one of the eight general registers (10_state.md R20). -/
abbrev Reg := Fin 8

/-- SP_INDEX: register 7 is the stack pointer (00_scope.md R7, 10_state.md R21). -/
abbrev Reg.sp : Reg := 7

/-- The operand byte that names a register (30_encoding.md R75). -/
def Reg.byte (r : Reg) : Byte := BitVec.ofNat 8 r.val

/-- The closed enumeration of the operations the decoder dispatches on, in the row order of R76 (R79, R83). -/
inductive Op where
  | halt | printNum | loadImm | mul | push | pop | call | ret | add | store | jump | printChar | compare
  | jumpIfEq | jumpIfNe
  deriving DecidableEq, Repr

/-- An instruction. A register operand is the WHOLE operand byte, not masked (R75): whether it names a register is the
check of WellFormed. -/
inductive Instr where
  /-- HALT, format N (R141). -/
  | halt
  /-- PRINT_NUM ra, format R (R143). -/
  | printNum (ra : Byte)
  /-- LOAD_IMM ra, imm, format RI (R142). -/
  | loadImm (ra imm : Byte)
  /-- MUL ra, rb, format RR (R177). -/
  | mul (ra rb : Byte)
  /-- PUSH ra, format R (R207). -/
  | push (ra : Byte)
  /-- POP ra, format R (R210). -/
  | pop (ra : Byte)
  /-- CALL ra, format R (R214). -/
  | call (ra : Byte)
  /-- RET, format N (R217). -/
  | ret
  /-- ADD ra, rb, format RR (R176). -/
  | add (ra rb : Byte)
  /-- STORE ra, x, format RX: x is fetched and ignored (R152). -/
  | store (ra x : Byte)
  /-- JUMP ra, format R (R231). -/
  | jump (ra : Byte)
  /-- PRINT_CHAR ra, format R (R144). -/
  | printChar (ra : Byte)
  /-- COMPARE ra, rb, format RR (R180). -/
  | compare (ra rb : Byte)
  /-- JUMP_IF_EQ ra, format R (R233). -/
  | jumpIfEq (ra : Byte)
  /-- JUMP_IF_NE ra, format R (R234). -/
  | jumpIfNe (ra : Byte)
  deriving DecidableEq, Repr

/-- The operation an instruction names. -/
def Instr.op : Instr → Op
  | .halt => .halt
  | .printNum _ => .printNum
  | .loadImm _ _ => .loadImm
  | .mul _ _ => .mul
  | .push _ => .push
  | .pop _ => .pop
  | .call _ => .call
  | .ret => .ret
  | .add _ _ => .add
  | .store _ _ => .store
  | .jump _ => .jump
  | .printChar _ => .printChar
  | .compare _ _ => .compare
  | .jumpIfEq _ => .jumpIfEq
  | .jumpIfNe _ => .jumpIfNe

/-- Where the next pc comes from (R83, 40_fetch_decode_execute.md R120). -/
inductive PcSrc where
  | seq | reg | popped | condEq | condNe | hold
  deriving DecidableEq, Repr

/-- What the stack_controller is asked to do (43_stack.md R200, port s_op). -/
inductive StackOp where
  | none | push | pop | call | ret
  deriving DecidableEq, Repr

end Sys2Proof
end

