-- ==== Sys2Proof/WellFormed.lean ====
section
/-! DEFINITION. Which instructions are well formed: every register field names one of the eight registers
(30_encoding.md R75, R81, R84). `imm` and STORE's `x` take every value. -/

namespace Sys2Proof

/-- A register field names a register exactly when it holds 0..7 (R75). -/
def regFieldOk (f : Byte) : Bool := f.toNat < 8

/-- The check of an instruction's register fields, by R84's list of which bytes are register fields. -/
def Instr.regFieldsOk : Instr → Bool
  | .halt => true
  | .printNum ra => regFieldOk ra
  | .loadImm ra _ => regFieldOk ra
  | .mul ra rb => regFieldOk ra && regFieldOk rb
  | .push ra => regFieldOk ra
  | .pop ra => regFieldOk ra
  | .call ra => regFieldOk ra
  | .ret => true
  | .add ra rb => regFieldOk ra && regFieldOk rb
  | .store ra _ => regFieldOk ra
  | .jump ra => regFieldOk ra
  | .printChar ra => regFieldOk ra
  | .compare ra rb => regFieldOk ra && regFieldOk rb
  | .jumpIfEq ra => regFieldOk ra
  | .jumpIfNe ra => regFieldOk ra

/-- An instruction the decoder may hand to the execute_engine. -/
abbrev WellFormed (i : Instr) : Prop := i.regFieldsOk = true

end Sys2Proof
end

