-- ==== Sys2Proof/Decode.lean ====
section
/-! DEFINITION. The decoder (30_encoding.md, 40_fetch_decode_execute.md sections 3 and 5): its table per operation, the
decoding of a byte sequence, and the encoder written from the same table. -/

namespace Sys2Proof

/-! ## The table per operation (R76, R83, R84, R108) -/

/-- The opcode byte (R76). -/
def Op.opcode : Op → Byte
  | .halt => 0x01#8
  | .printNum => 0x47#8
  | .loadImm => 0x82#8
  | .mul => 0xA2#8
  | .push => 0x45#8
  | .pop => 0x46#8
  | .call => 0x50#8
  | .ret => 0x11#8
  | .add => 0xA0#8
  | .store => 0x84#8
  | .jump => 0x54#8
  | .printChar => 0x48#8
  | .compare => 0xA7#8
  | .jumpIfEq => 0x55#8
  | .jumpIfNe => 0x56#8

/-- The fifteen operations, in the row order of R76. -/
def Op.all : List Op :=
  [.halt, .printNum, .loadImm, .mul, .push, .pop, .call, .ret, .add, .store, .jump, .printChar, .compare, .jumpIfEq,
   .jumpIfNe]

/-- The match of all 8 bits of the opcode byte against the fifteen values; any other byte is invalid (R79). -/
def Op.ofByte? (b : Byte) : Option Op := Op.all.find? fun op => op.opcode == b

/-- The length in bytes, the opcode included (R76, R108). -/
def Op.len : Op → Nat
  | .halt | .ret => 1
  | .printNum | .push | .pop | .call | .jump | .printChar | .jumpIfEq | .jumpIfNe => 2
  | .loadImm | .mul | .add | .store | .compare => 3

/-- Byte 1 is a register field (R84, R108). -/
def Op.usesRa : Op → Bool
  | .halt | .ret => false
  | .printNum | .push | .pop | .call | .jump | .printChar | .jumpIfEq | .jumpIfNe => true
  | .loadImm | .mul | .add | .store | .compare => true

/-- Byte 2 is a register field: ADD, MUL and COMPARE only (R84, R108). -/
def Op.usesRb : Op → Bool
  | .mul | .add | .compare => true
  | .halt | .ret | .printNum | .push | .pop | .call | .jump | .printChar | .jumpIfEq | .jumpIfNe | .loadImm | .store =>
    false

/-- The decoder's internal number of an operation (R83). -/
def Op.opId : Op → BitVec 4
  | .halt => 0#4
  | .printNum => 1#4
  | .loadImm => 2#4
  | .mul => 3#4
  | .push => 4#4
  | .pop => 5#4
  | .call => 6#4
  | .ret => 7#4
  | .add => 8#4
  | .store => 9#4
  | .jump => 10#4
  | .printChar => 11#4
  | .compare => 12#4
  | .jumpIfEq => 13#4
  | .jumpIfNe => 14#4

/-- alu_op, where alu_en is 1: ADD = 0, MUL = 1, COMPARE = 2 (R83, R108, 42_alu.md R170). -/
def Op.aluOp : Op → Option (BitVec 2)
  | .add => some 0#2
  | .mul => some 1#2
  | .compare => some 2#2
  | .halt | .ret | .printNum | .push | .pop | .call | .jump | .printChar | .jumpIfEq | .jumpIfNe | .loadImm | .store =>
    none

/-- pc_src (R83, R108). -/
def Op.pcSrc : Op → PcSrc
  | .halt => .hold
  | .call | .jump => .reg
  | .ret => .popped
  | .jumpIfEq => .condEq
  | .jumpIfNe => .condNe
  | .printNum | .push | .pop | .printChar | .loadImm | .mul | .add | .store | .compare => .seq

/-- s_op: the request to the stack_controller (43_stack.md R200). -/
def Op.stackOp : Op → StackOp
  | .push => .push
  | .pop => .pop
  | .call => .call
  | .ret => .ret
  | .halt | .printNum | .printChar | .jump | .jumpIfEq | .jumpIfNe | .loadImm | .mul | .add | .store | .compare => .none

/-! ## Decoding -/

/-- Why the decoder hands over no instruction. -/
inductive DecodeError where
  /-- There is no opcode byte. -/
  | noOpcode
  /-- The opcode byte is none of the fifteen (R80, R106). -/
  | unknownOpcode (opcode : Byte)
  /-- An operand byte that the opcode's length calls for is missing (R102, R103). -/
  | missingOperand (opcode : Byte)
  /-- A register field holds 8..255 (R111). -/
  | badRegister (opcode field : Byte)
  deriving DecidableEq, Repr

/-- The operand bytes b1 and b2 that an operation's length calls for, and the bytes after them. A byte the instruction
does not have is 0 and is never read (R102, R126). -/
def Op.takeOperands (op : Op) (rest : List Byte) : Option (Byte × Byte × List Byte) :=
  match op.len, rest with
  | 1, rest => some (0#8, 0#8, rest)
  | 2, b1 :: rest => some (b1, 0#8, rest)
  | 3, b1 :: b2 :: rest => some (b1, b2, rest)
  | _, _ => none

/-- The instruction of an operation and its operand bytes: ra is b1; rb, imm and x are b2 (R72, R112). -/
def Op.build (op : Op) (b1 b2 : Byte) : Instr :=
  match op with
  | .halt => .halt
  | .printNum => .printNum b1
  | .loadImm => .loadImm b1 b2
  | .mul => .mul b1 b2
  | .push => .push b1
  | .pop => .pop b1
  | .call => .call b1
  | .ret => .ret
  | .add => .add b1 b2
  | .store => .store b1 b2
  | .jump => .jump b1
  | .printChar => .printChar b1
  | .compare => .compare b1 b2
  | .jumpIfEq => .jumpIfEq b1
  | .jumpIfNe => .jumpIfNe b1

/-- The first register field, ra before rb, that names no register (R111). -/
def Op.badField? (op : Op) (b1 b2 : Byte) : Option Byte :=
  if op.usesRa && !regFieldOk b1 then some b1
  else if op.usesRb && !regFieldOk b2 then some b2
  else none

/-- The decoder on a byte sequence in increasing address order: the instruction and the bytes after it, or the first
reason of R126's order why there is none. -/
def decode : List Byte → Except DecodeError (Instr × List Byte)
  | [] => .error .noOpcode
  | b :: rest =>
    match Op.ofByte? b with
    | none => .error (.unknownOpcode b)
    | some op =>
      match op.takeOperands rest with
      | none => .error (.missingOperand b)
      | some (b1, b2, rest') =>
        match op.badField? b1 b2 with
        | some f => .error (.badRegister b f)
        | none => .ok (op.build b1 b2, rest')

/-! ## Encoding -/

/-- The bytes of an instruction in increasing address order (R71, R73, R76). -/
def encode : Instr → List Byte
  | .halt => [Op.halt.opcode]
  | .printNum ra => [Op.printNum.opcode, ra]
  | .loadImm ra imm => [Op.loadImm.opcode, ra, imm]
  | .mul ra rb => [Op.mul.opcode, ra, rb]
  | .push ra => [Op.push.opcode, ra]
  | .pop ra => [Op.pop.opcode, ra]
  | .call ra => [Op.call.opcode, ra]
  | .ret => [Op.ret.opcode]
  | .add ra rb => [Op.add.opcode, ra, rb]
  | .store ra x => [Op.store.opcode, ra, x]
  | .jump ra => [Op.jump.opcode, ra]
  | .printChar ra => [Op.printChar.opcode, ra]
  | .compare ra rb => [Op.compare.opcode, ra, rb]
  | .jumpIfEq ra => [Op.jumpIfEq.opcode, ra]
  | .jumpIfNe ra => [Op.jumpIfNe.opcode, ra]

/-! ## Words numbered as spec/opcode_table.json numbers them -/

/-- The three bytes of a table word: bit 0 is the lowest bit of the first byte, byte 1 is bits 15..8, byte 2 is bits
23..16, and every bit at `nbits` or above is 0. -/
def tableWordBytes (nbits w : Nat) : List Byte :=
  let v := w % 2 ^ nbits
  [BitVec.ofNat 8 v, BitVec.ofNat 8 (v / 256), BitVec.ofNat 8 (v / 65536)]

/-- The instruction the decoder reads from a table word. -/
def decodeTableWord (nbits w : Nat) : Option Instr :=
  match decode (tableWordBytes nbits w) with
  | .ok (i, _) => some i
  | .error _ => none

end Sys2Proof
end

