-- ==== Sys2Proof/Config.lean ====
section
/-! DEFINITION. What the spec leaves to a parameter: the two model arguments of CORE (00_scope.md R8) and the
host-side values that a model must not fix (41_data_and_io.md R147, 70_reset_and_hazards.md R299). -/

namespace Sys2Proof

/-- The model arguments of CORE (R8; 92_eei_decisions.md D4, D11). State carries them in a field that no step writes,
so that a claim about every state is a claim about every choice of them (DESIGN CHOICE: notes/assumptions/1.md). -/
structure Params where
  /-- STRICT_FETCH_WINDOW (40_fetch_decode_execute.md R104). -/
  strictFetchWindow : Bool
  /-- STACK_LIMIT, in 1..0xFF (43_stack.md R203); the range is part of the invariant, not of the type. -/
  stackLimit : Byte
  deriving DecidableEq, Repr

/-- The defaults of R8: STRICT_FETCH_WINDOW = false, STACK_LIMIT = 0xF4. -/
def Params.default : Params := { strictFetchWindow := false, stackLimit := 0xF4#8 }

/-- CHAR_RENDERING: a parameter of the host, of which the spec fixes nothing (R147, D15; DESIGN CHOICE: notes/assumptions/8.md). -/
opaque Config.charRendering : Byte → String

/-- The exit status of a faulted run, less one: R299 fixes only that the status is not 0 (D23; DESIGN CHOICE: notes/assumptions/8.md). -/
opaque Config.faultExitLessOne : Nat

end Sys2Proof
end

