-- ==== Sys2Proof/Machine/State.lean ====
section
/-! DEFINITION. The state of CORE and its memory (10_state.md R42), its value at reset (R44), and the reasons a step can
stop. -/

namespace Sys2Proof.Machine

/-- Attached memory: the listed cells, addresses strictly rising, none 0; every cell not listed holds 0
(20_memory.md R50, R69; DESIGN CHOICE: notes/assumptions/5.md). -/
abbrev Memory := List Host.Cell

/-- The run status (R31). -/
inductive RunStatus where
  /-- Another step may be taken. -/
  | run
  /-- A HALT has executed. -/
  | halted
  /-- A fault was raised. -/
  | faulted
  deriving DecidableEq, Repr

/-- The fault causes, with code 0 for no fault (60_exceptions.md R260). Three bits give these eight and no more. -/
inductive FaultCause where
  | noFault | unknownOpcode | fetchRange | badRegister | stackLow | stackHigh | returnRange | aluUnsupported
  deriving DecidableEq, Repr

/-- The fault record (R32): f_cause, f_pc, f_opcode, f_info. -/
structure FaultRecord where
  cause : FaultCause
  pc : PcWord
  opcode : Byte
  info : PcWord
  deriving DecidableEq, Repr

/-- The fault record of all zeros (R32, R44). -/
def FaultRecord.zero : FaultRecord := { cause := .noFault, pc := 0#9, opcode := 0#8, info := 0#9 }

/-- The kind of an output event (R33). -/
inductive EventKind where
  | num | char
  deriving DecidableEq, Repr

/-- One output event (R33). -/
structure Event where
  kind : EventKind
  value : Byte
  deriving DecidableEq, Repr

/-- What a unit hands to fault entry when it raises a fault: cause, the opcode byte if it was read and otherwise 0,
and info (60_exceptions.md R262). -/
structure Raise where
  cause : FaultCause
  opcode : Byte
  info : PcWord
  deriving DecidableEq, Repr

/-- The whole state (R42), with the model arguments beside it. -/
structure State where
  /-- register_file; x[7] is SP (R20, R21). -/
  x : Vector Byte 8
  /-- program_counter (R28, R29). -/
  pc : PcWord
  /-- flag_register (R34). -/
  FL : Byte
  /-- attached memory (20_memory.md R50). -/
  mem : Memory
  /-- the run status (R31). -/
  status : RunStatus
  /-- the fault record (R32). -/
  fault : FaultRecord
  /-- the output events, oldest first (R33). -/
  out : List Event
  /-- the model arguments, which no step writes (00_scope.md R8; DESIGN CHOICE: notes/assumptions/1.md). -/
  cfg : Params
  deriving DecidableEq, Repr

/-- The state right after reset (R44, 70_reset_and_hazards.md R290), with the model arguments at their defaults
(00_scope.md R8). -/
def State.reset : State where
  x := #v[0x00#8, 0x00#8, 0x00#8, 0x00#8, 0x00#8, 0x00#8, 0x00#8, 0xF4#8]
  pc := 0#9
  FL := 0x00#8
  mem := []
  status := .run
  fault := .zero
  out := []
  cfg := .default

/-- Why the model's `step` stops. These are no faults of the spec's R260: a fault of R260 is taken, as a next state with
status FAULTED (DESIGN CHOICE: notes/assumptions/2.md). -/
inductive Fault where
  /-- Raised by `step` alone, in status HALTED, where the spec has no step (40_fetch_decode_execute.md R101). Safe. -/
  | noStepWhenHalted
  /-- Raised by `step` alone, in status FAULTED, where the spec has no step (R101, 60_exceptions.md R263). Safe. -/
  | noStepWhenFaulted
  deriving DecidableEq, Repr

/-- Why the model has no meaning for an instruction. -/
inductive Refusal where
  /-- Raised by an arm of `exec` for an instruction without a meaning. Every instruction has its meaning, so nothing
  raises it. Safe. -/
  | notModelled (mnemonic : String)
  deriving DecidableEq, Repr

/-- What an instruction's meaning answers. -/
abbrev Result := Host.Outcome State Fault Refusal

end Sys2Proof.Machine
end

