-- ==== Sys2Proof/Machine/Ops.lean ====
section
/-! DEFINITION. The named operations over memory, registers, the program counter, the output port and the status, and
the one operation that takes a fault. -/

namespace Sys2Proof.Machine

/-! ## Codes the ports give the named values -/

/-- The status output: RUN = 0, HALTED = 1, FAULTED = 2 (40_fetch_decode_execute.md R130). -/
def RunStatus.code : RunStatus → BitVec 2
  | .run => 0#2
  | .halted => 1#2
  | .faulted => 2#2

/-- f_cause (60_exceptions.md R260). -/
def FaultCause.code : FaultCause → BitVec 3
  | .noFault => 0#3
  | .unknownOpcode => 1#3
  | .fetchRange => 2#3
  | .badRegister => 3#3
  | .stackLow => 4#3
  | .stackHigh => 5#3
  | .returnRange => 6#3
  | .aluUnsupported => 7#3

/-- out_kind (10_state.md R33). -/
def EventKind.code : EventKind → BitVec 1
  | .num => 0#1
  | .char => 1#1

/-! ## Memory -/

/-- MemRead(addr, 1): the cell's value, 0 where nothing is listed (00_scope.md R13, 20_memory.md R50, R69). -/
def Memory.read (m : Memory) (a : Byte) : Byte :=
  match m with
  | [] => 0#8
  | (k, v) :: t => if k = a.toNat then v else Memory.read t a

/-- MemWrite(addr, 1, v), keeping the canonical form: writing 0 takes the cell out of the list (R13, R51). -/
def Memory.write (m : Memory) (a v : Byte) : Memory :=
  match m with
  | [] => if v = 0#8 then [] else [(a.toNat, v)]
  | (k, w) :: t =>
    if a.toNat < k then (if v = 0#8 then (k, w) :: t else (a.toNat, v) :: (k, w) :: t)
    else if k = a.toNat then (if v = 0#8 then t else (a.toNat, v) :: t)
    else (k, w) :: Memory.write t a v

/-- The canonical form of a list whose addresses are all at least `lo`. -/
def Memory.wfFrom (lo : Nat) (m : Memory) : Bool :=
  match m with
  | [] => true
  | (k, v) :: t => decide (lo ≤ k) && decide (k < 256) && decide (v ≠ 0#8) && Memory.wfFrom (k + 1) t

/-- The canonical form: addresses strictly rising and below 256, no cell that holds 0. -/
def Memory.wf (m : Memory) : Bool := Memory.wfFrom 0 m

/-- The bytes at `a`, `a + 1`, …, at most `n` of them, ending with the last cell: no address of 256 or more reaches the
port (R51, R57). -/
def Memory.readFrom (m : Memory) (a n : Nat) : List Byte :=
  match n with
  | 0 => []
  | n + 1 => if a < 256 then m.read (BitVec.ofNat 8 a) :: Memory.readFrom m (a + 1) n else []

/-- Bytes written at `a`, `a + 1`, …; those past address 255 have no cell and are dropped. -/
def Memory.writeFrom (m : Memory) (a : Nat) (bs : List Byte) : Memory :=
  match bs with
  | [] => m
  | b :: t => Memory.writeFrom (if a < 256 then m.write (BitVec.ofNat 8 a) b else m) (a + 1) t

/-! ## Registers, pc, output -/

/-- `x[i]` (00_scope.md R13). -/
def State.reg (s : State) (r : Reg) : Byte := s.x[r]

/-- `x[i] <- v` (R13). No register is hardwired (10_state.md R22). -/
def State.setReg (s : State) (r : Reg) (v : Byte) : State := { s with x := s.x.set r v }

/-- `MemWrite(addr, 1, v)` on the state's memory (R13). -/
def State.memWrite (s : State) (a v : Byte) : State := { s with mem := s.mem.write a v }

/-- `FL <- v` (R13). -/
def State.setFL (s : State) (v : Byte) : State := { s with FL := v }

/-- `emit(kind, v)`: one event after every earlier one (R13, 10_state.md R33). -/
def State.emit (s : State) (kind : EventKind) (v : Byte) : State :=
  { s with out := s.out ++ [{ kind := kind, value := v }] }

/-- The sequential advance `pc <- pc + len`, in 9 bits (40_fetch_decode_execute.md R120, R122; DEDUCED: notes/assumptions/6.md). -/
def State.advance (s : State) (len : Nat) : State := { s with pc := s.pc + BitVec.ofNat 9 len }

/-- A control transfer to an 8-bit target (R120, R123). -/
def State.jump (s : State) (target : Byte) : State := { s with pc := target.toPc }

/-- `halt`: the status becomes HALTED (00_scope.md R13). -/
def State.halt (s : State) : State := { s with status := .halted }

/-! ## Taking a fault -/

/-- Fault entry (60_exceptions.md R262): the five writes, and nothing else. There is no handler and no vector, and no
return from a fault beside it (R263, R267). -/
def State.enterFault (s : State) (r : Raise) : State :=
  { s with status := .faulted, fault := { cause := r.cause, pc := s.pc, opcode := r.opcode, info := r.info } }

/-- `raise Fault(cause, info)` from the instruction with operation `op`, on the state the step began with: none of the
step's own writes lands (R262, R264). f_opcode is the operation's opcode byte, since all 8 bits were matched
(30_encoding.md R79; DEDUCED: notes/assumptions/4.md). -/
def takeFault (op : Op) (cause : FaultCause) (info : PcWord) (s : State) : Result :=
  .next (s.enterFault { cause := cause, opcode := op.opcode, info := info })

/-! ## The stack_controller's arithmetic -/

/-- sp_dec: none where it raises STACK_LOW (43_stack.md R201). -/
def spDec (v : Byte) : Option Byte := if v = 0#8 then none else some (v - 1#8)

/-- sp_inc with the given STACK_LIMIT: none where it raises STACK_HIGH (R202). -/
def spInc (limit v : Byte) : Option Byte := if limit.toNat ≤ v.toNat then none else some (v + 1#8)

end Sys2Proof.Machine
end

