-- ==== Sys2Proof/Machine/Flags.lean ====
section
/-! DEFINITION. The flags register FL (10_state.md section 4) and the one computation that sets it (42_alu.md R180). -/

namespace Sys2Proof.Machine

/-- E, bit 0 of FL: equal (R34). -/
def State.flagE (s : State) : Bool := s.FL.getLsbD 0

/-- G, bit 1 of FL: greater-than (R34). -/
def State.flagG (s : State) : Bool := s.FL.getLsbD 1

/-- L, bit 2 of FL: less-than (R34). -/
def State.flagL (s : State) : Bool := s.FL.getLsbD 2

/-- COMPARE's value of FL: unsigned, evaluated as less, then greater, then equal; all 8 bits (R178 to R180). -/
def compareFlags (a b : Byte) : Byte :=
  if a.toNat < b.toNat then 0b00000100#8
  else if a.toNat > b.toNat then 0b00000010#8
  else 0b00000001#8

/-- The values FL can hold after reset (10_state.md R35). -/
def legalFL (v : Byte) : Bool := v == 0x00#8 || v == 0x01#8 || v == 0x02#8 || v == 0x04#8

end Sys2Proof.Machine
end

