-- ==== Sys2Proof/Machine/Operands.lean ====
section
/-! DEFINITION. The one operand form that needs a check: a register field (30_encoding.md R75). An immediate (R74) and
STORE's ignored byte (R72) are taken as they are. -/

namespace Sys2Proof.Machine

/-- The register a field names, or none for 8..255 (R75). -/
def regOf? (f : Byte) : Option Reg := if h : f.toNat < 8 then some ⟨f.toNat, h⟩ else none

/-- Run an instruction on the register its `ra` field names, or raise BAD_REGISTER with the field as info
(40_fetch_decode_execute.md R111). Through `step` the decoder has raised it already (DESIGN CHOICE: notes/assumptions/3.md). -/
def withReg (op : Op) (f : Byte) (s : State) (k : Reg → Result) : Result :=
  match regOf? f with
  | some r => k r
  | none => takeFault op .badRegister f.toPc s

/-- The same for an instruction with two register fields: `ra` is checked before `rb` (R111, 60_exceptions.md R265). -/
def withRegs (op : Op) (fa fb : Byte) (s : State) (k : Reg → Reg → Result) : Result :=
  withReg op fa s fun a => withReg op fb s fun b => k a b

end Sys2Proof.Machine
end

