-- ==== Sys2Proof/Machine/Alu.lean ====
section
/-! DEFINITION. The alu (42_alu.md section 1): a function of two values and an operation code. -/

namespace Sys2Proof.Machine

/-- The alu's outputs (R170). A write enable and its value are one Option: `none` is enable 0. -/
structure AluOut where
  /-- res with res_we. -/
  res : Option Byte
  /-- fl with fl_we. -/
  fl : Option Byte
  deriving DecidableEq, Repr

/-- ADD: the exact sum, reduced to 8 bits (R173, R175). -/
def aluAdd (a b : Byte) : Byte := BitVec.ofNat 8 (a.toNat + b.toNat)

/-- MUL: the low 8 bits of the exact product (R173, R175). -/
def aluMul (a b : Byte) : Byte := BitVec.ofNat 8 (a.toNat * b.toNat)

/-- The alu on alu_op: ADD = 0, MUL = 1, COMPARE = 2; code 3 is unsupported (R170, 40_fetch_decode_execute.md R114). -/
def alu (aluOp : BitVec 2) (a b : Byte) : Option AluOut :=
  if aluOp = 0#2 then some { res := some (aluAdd a b), fl := none }
  else if aluOp = 1#2 then some { res := some (aluMul a b), fl := none }
  else if aluOp = 2#2 then some { res := none, fl := some (compareFlags a b) }
  else none

/-- The execute_engine's part in an ALU instruction: read the two registers, write res to x[ra] or fl to FL, advance by
the length; an unsupported code raises ALU_UNSUPPORTED with the code as info (R113, R114). -/
def executeAlu (op : Op) (aluOp : BitVec 2) (ra rb : Byte) (s : State) : Result :=
  withRegs op ra rb s fun a b =>
    match alu aluOp (s.reg a) (s.reg b) with
    | none => takeFault op .aluUnsupported (aluOp.setWidth 9) s
    | some o =>
      let s₁ := match o.res with
        | some v => s.setReg a v
        | none => s
      let s₂ := match o.fl with
        | some v => s₁.setFL v
        | none => s₁
      .next (s₂.advance op.len)

end Sys2Proof.Machine
end

