-- ==== Sys2Proof/Machine/Arith.lean ====
section
/-! DEFINITION. ADD, MUL and COMPARE (42_alu.md section 3), each with the alu_op the decoder drives for it
(40_fetch_decode_execute.md R108). -/

namespace Sys2Proof.Machine

/-- ADD: x[ra] <- (x[ra] + x[rb]) mod 256 (R176). -/
def execAdd (ra rb : Byte) (s : State) : Result := executeAlu .add 0#2 ra rb s

/-- MUL: x[ra] <- (x[ra] * x[rb]) mod 256 (R177). -/
def execMul (ra rb : Byte) (s : State) : Result := executeAlu .mul 1#2 ra rb s

/-- COMPARE: FL from x[ra] and x[rb] (R180). -/
def execCompare (ra rb : Byte) (s : State) : Result := executeAlu .compare 2#2 ra rb s

end Sys2Proof.Machine
end

