-- ==== Sys2Proof/Machine/Control.lean ====
section
/-! DEFINITION. JUMP, JUMP_IF_EQ and JUMP_IF_NE (44_control_transfer.md). -/

namespace Sys2Proof.Machine

/-- JUMP: pc <- x[ra] (R231). -/
def execJump (ra : Byte) (s : State) : Result :=
  withReg .jump ra s fun a => .next (s.jump (s.reg a))

/-- JUMP_IF_EQ: pc <- x[ra] if E is set, else pc + 2 (R232, R233). -/
def execJumpIfEq (ra : Byte) (s : State) : Result :=
  withReg .jumpIfEq ra s fun a => .next (if s.flagE then s.jump (s.reg a) else s.advance 2)

/-- JUMP_IF_NE: pc <- x[ra] if E is clear, else pc + 2 (R232, R234). -/
def execJumpIfNe (ra : Byte) (s : State) : Result :=
  withReg .jumpIfNe ra s fun a => .next (if s.flagE then s.advance 2 else s.jump (s.reg a))

end Sys2Proof.Machine
end

