-- ==== Sys2Proof/Machine/DataIo.lean ====
section
/-! DEFINITION. HALT, LOAD_IMM, PRINT_NUM, PRINT_CHAR and STORE (41_data_and_io.md). -/

namespace Sys2Proof.Machine

/-- HALT: the status becomes HALTED, and pc keeps the address of the HALT byte (R141). -/
def execHalt (s : State) : Result := .next s.halt

/-- LOAD_IMM: x[ra] <- imm (R142). -/
def execLoadImm (ra imm : Byte) (s : State) : Result :=
  withReg .loadImm ra s fun a => .next ((s.setReg a imm).advance 3)

/-- PRINT_NUM: emit(NUM, x[ra]) (R143). -/
def execPrintNum (ra : Byte) (s : State) : Result :=
  withReg .printNum ra s fun a => .next ((s.emit .num (s.reg a)).advance 2)

/-- PRINT_CHAR: emit(CHAR, x[ra]) (R144). -/
def execPrintChar (ra : Byte) (s : State) : Result :=
  withReg .printChar ra s fun a => .next ((s.emit .char (s.reg a)).advance 2)

/-- STORE: emit(NUM, x[ra]); byte 2 is neither checked nor used, and memory is unchanged (R148 to R152). -/
def execStore (ra _x : Byte) (s : State) : Result :=
  withReg .store ra s fun a => .next ((s.emit .num (s.reg a)).advance 3)

end Sys2Proof.Machine
end

