-- ==== Sys2Proof/Machine/Stack.lean ====
section
/-! DEFINITION. PUSH, POP, CALL and RET (43_stack.md section 2). In each, a statement sees the writes of the statements
before it, which settles the forms on R7 (40_fetch_decode_execute.md R124), and a fault is taken on the state the step
began with (60_exceptions.md R264). -/

namespace Sys2Proof.Machine

/-- PUSH: decrement SP, then write x[ra], read after the decrement, to mem[SP] (R207, R208). -/
def execPush (ra : Byte) (s : State) : Result :=
  withReg .push ra s fun a =>
    match spDec (s.reg .sp) with
    | none => takeFault .push .stackLow 0#9 s
    | some sp =>
      let s₁ := s.setReg .sp sp
      .next ((s₁.memWrite sp (s₁.reg a)).advance 2)

/-- POP: check SP, read mem[SP] into x[ra], then increment x[7], which is the popped byte when ra = 7 (R210, R211). -/
def execPop (ra : Byte) (s : State) : Result :=
  withReg .pop ra s fun a =>
    match spInc s.cfg.stackLimit (s.reg .sp) with
    | none => takeFault .pop .stackHigh (s.reg .sp).toPc s
    | some _ =>
      let s₁ := s.setReg a (s.mem.read (s.reg .sp))
      match spInc s.cfg.stackLimit (s₁.reg .sp) with
      | none => takeFault .pop .stackHigh (s₁.reg .sp).toPc s
      | some sp => .next ((s₁.setReg .sp sp).advance 2)

/-- CALL's return address: pc + 2, the exact sum (R212, 40_fetch_decode_execute.md R121). -/
def returnAddress (s : State) : Nat := s.pc.toNat + 2

/-- CALL: refuse a return address that fits in no cell, decrement SP, write the return address to mem[SP], and jump to
x[ra], read after the decrement (R213, R214). -/
def execCall (ra : Byte) (s : State) : Result :=
  withReg .call ra s fun a =>
    if 255 < returnAddress s then takeFault .call .returnRange (BitVec.ofNat 9 (returnAddress s)) s
    else
      match spDec (s.reg .sp) with
      | none => takeFault .call .stackLow 0#9 s
      | some sp =>
        let s₁ := s.setReg .sp sp
        .next ((s₁.memWrite sp (BitVec.ofNat 8 (returnAddress s))).jump (s₁.reg a))

/-- RET: read mem[SP], increment SP, and go to the byte read (R217). -/
def execRet (s : State) : Result :=
  match spInc s.cfg.stackLimit (s.reg .sp) with
  | none => takeFault .ret .stackHigh (s.reg .sp).toPc s
  | some sp => .next ((s.setReg .sp sp).jump (s.mem.read (s.reg .sp)))

end Sys2Proof.Machine
end

