-- ==== Sys2Proof/Machine/Dispatch.lean ====
section
/-! DEFINITION. The execute_engine's selection of the instruction rule (40_fetch_decode_execute.md R112): one arm per
constructor of Instr. -/

namespace Sys2Proof.Machine

def exec (i : Instr) (s : State) : Host.Outcome State Fault Refusal :=
  match i with
  | .halt => Sys2Proof.Machine.execHalt s
  | .printNum ra => Sys2Proof.Machine.execPrintNum ra s
  | .loadImm ra imm => Sys2Proof.Machine.execLoadImm ra imm s
  | .mul ra rb => Sys2Proof.Machine.execMul ra rb s
  | .push ra => Sys2Proof.Machine.execPush ra s
  | .pop ra => Sys2Proof.Machine.execPop ra s
  | .call ra => Sys2Proof.Machine.execCall ra s
  | .ret => Sys2Proof.Machine.execRet s
  | .add ra rb => Sys2Proof.Machine.execAdd ra rb s
  | .store ra x => Sys2Proof.Machine.execStore ra x s
  | .jump ra => Sys2Proof.Machine.execJump ra s
  | .printChar ra => Sys2Proof.Machine.execPrintChar ra s
  | .compare ra rb => Sys2Proof.Machine.execCompare ra rb s
  | .jumpIfEq ra => Sys2Proof.Machine.execJumpIfEq ra s
  | .jumpIfNe ra => Sys2Proof.Machine.execJumpIfNe ra s

end Sys2Proof.Machine
end

