-- ==== Sys2Proof/Machine/Fetch.lean ====
section
/-! DEFINITION. fetch_unit and the hand-over to the decoder (40_fetch_decode_execute.md sections 2 and 3, R126). -/

namespace Sys2Proof.Machine

/-- The longest instruction, in bytes (30_encoding.md R70). -/
def maxLen : Nat := 3

/-- The bytes at pc, at most three, ending with the last cell (R102, R103). The decoder uses those its opcode's length
calls for; a read has no side effect (20_memory.md R60), so the others cannot be told from bytes not read
(DEDUCED: notes/assumptions/11.md). -/
def State.window (s : State) : List Byte := s.mem.readFrom s.pc.toNat maxLen

/-- The fault a decoding failure raises: UNKNOWN_OPCODE with info 0 (R106), FETCH_RANGE with the first address that names
no cell (R103), BAD_REGISTER with the field (R111). -/
def raiseOf : DecodeError → Raise
  | .noOpcode => { cause := .fetchRange, opcode := 0#8, info := 256#9 }
  | .unknownOpcode op => { cause := .unknownOpcode, opcode := op, info := 0#9 }
  | .missingOperand op => { cause := .fetchRange, opcode := op, info := 256#9 }
  | .badRegister op f => { cause := .badRegister, opcode := op, info := f.toPc }

/-- Fetch and decode the instruction at pc, with the two range checks made before the opcode is decoded: pc itself (R103)
and, under STRICT_FETCH_WINDOW, pc + 2 (R104). -/
def fetch (s : State) : Except Raise Instr :=
  if 256 ≤ s.pc.toNat then .error { cause := .fetchRange, opcode := 0#8, info := s.pc }
  else if s.cfg.strictFetchWindow && decide (256 ≤ s.pc.toNat + 2) then
    .error { cause := .fetchRange, opcode := 0#8, info := 256#9 }
  else
    match decode s.window with
    | .ok (i, _) => .ok i
    | .error e => .error (raiseOf e)

/-- A table word's bytes stored at pc, where `fetch` reads. -/
def State.placeWord (s : State) (nbits w : Nat) : State :=
  { s with mem := s.mem.writeFrom s.pc.toNat (tableWordBytes nbits w) }

end Sys2Proof.Machine
end

