-- ==== Sys2Proof/Machine/Step.lean ====
section
/-! DEFINITION. One step of CORE (40_fetch_decode_execute.md R100, R101, R126), and where an instruction is placed for the
next step to run it. -/

namespace Sys2Proof.Machine

/-- One step: fetch and decode, then either the fault that raised (60_exceptions.md R262) or the instruction. Only status
RUN has a step (R101). -/
def step (s : State) : Host.Outcome State Fault Refusal :=
  match s.status with
  | .run =>
    match fetch s with
    | .error r => .next (s.enterFault r)
    | .ok i => exec i s
  | .halted => .fault .noStepWhenHalted
  | .faulted => .fault .noStepWhenFaulted

/-- The state with a table word's instruction stored at pc: the load a host makes before the step
(70_reset_and_hazards.md R296; DEDUCED: notes/assumptions/7.md). -/
def State.withFetchWord (s : State) (nbits w : Nat) : State := s.placeWord nbits w

end Sys2Proof.Machine
end

