-- ==== Sys2Proof/Machine/Blocks.lean ====
section
/-! DEFINITION. The blocks of 00_scope.md R9 as their port tables give them: the memory port (20_memory.md R51),
fetch_unit (40_fetch_decode_execute.md R105), decoder (30_encoding.md R83), the read sides of register_file and
flag_register (10_state.md R27, R37), stack_controller (43_stack.md R200), and what CORE shows outside
(40_fetch_decode_execute.md R130). The alu (42_alu.md R170) is in Machine/Alu.lean. An enable and the value it guards are
one Option: `none` is enable 0 (DESIGN CHOICE: notes/assumptions/9.md). `step` does not use this file; Machine/Datapath.lean
joins the blocks, and that the whole agrees with `step` is a claim. -/

namespace Sys2Proof.Machine

/-! ## The memory port -/

/-- One access at the memory port (20_memory.md R51): mem_addr, and mem_wdata where mem_we is 1. A block that reads is
given mem_rdata as the memory's answer to the address it drives, a function of that address. -/
structure MemAccess where
  /-- mem_addr. -/
  addr : Byte
  /-- mem_we with mem_wdata; `none` is a read. -/
  wdata : Option Byte
  deriving DecidableEq, Repr

/-- The memory after an access: a write replaces the cell, a read changes nothing (R51, R60). -/
def Memory.serve (m : Memory) (q : Option MemAccess) : Memory :=
  match q.bind fun a => a.wdata.map fun v => (a.addr, v) with
  | some (a, v) => m.write a v
  | none => m

/-! ## fetch_unit -/

/-- fetch_unit's outputs (40_fetch_decode_execute.md R105); a byte not fetched is `none`. -/
structure FetchOut where
  /-- The addresses driven on mem_addr, in order, each a read. -/
  memAddrs : List Byte
  /-- op_out. -/
  opOut : Option Byte
  /-- b1_out. -/
  b1Out : Option Byte
  /-- b2_out. -/
  b2Out : Option Byte
  /-- fetch_fault with fetch_fault_addr. -/
  fault : Option PcWord
  deriving DecidableEq, Repr

/-- The address pc + k, driven only where it names a cell (R102, 20_memory.md R57). -/
def fetchAddr (pcIn : PcWord) (k : Nat) : Byte := BitVec.ofNat 8 (pcIn.toNat + k)

/-- fetch_unit (R102 to R105). len_in is the decoder's answer to op_out, `none` before there is one: then the opcode alone
is fetched. The two checks before the opcode read come first. -/
def fetchUnit (strictFetchWindow : Bool) (pcIn : PcWord) (lenIn : Option (BitVec 2)) (memRdata : Byte → Byte) : FetchOut :=
  if 256 ≤ pcIn.toNat then { memAddrs := [], opOut := none, b1Out := none, b2Out := none, fault := some pcIn }
  else if strictFetchWindow && decide (256 ≤ pcIn.toNat + 2) then
    { memAddrs := [], opOut := none, b1Out := none, b2Out := none, fault := some 256#9 }
  else
    let a0 := fetchAddr pcIn 0
    let opcodeOnly : FetchOut :=
      { memAddrs := [a0], opOut := some (memRdata a0), b1Out := none, b2Out := none, fault := none }
    match lenIn with
    | none => opcodeOnly
    | some len =>
      let a1 := fetchAddr pcIn 1
      let a2 := fetchAddr pcIn 2
      if 256 < pcIn.toNat + len.toNat then { opcodeOnly with fault := some 256#9 }
      else if len = 2#2 then { opcodeOnly with memAddrs := [a0, a1], b1Out := some (memRdata a1) }
      else if len = 3#2 then
        { opcodeOnly with memAddrs := [a0, a1, a2], b1Out := some (memRdata a1), b2Out := some (memRdata a2) }
      else opcodeOnly

/-! ## decoder -/

/-- The decoder's outputs for a valid opcode (30_encoding.md R83). -/
structure DecoderOut where
  /-- op_id, by its name; its number is `Op.opId`. -/
  op : Op
  /-- len. -/
  len : BitVec 2
  /-- uses_ra. -/
  usesRa : Bool
  /-- uses_rb. -/
  usesRb : Bool
  /-- bad_reg, with the first field that names no register (40_fetch_decode_execute.md R111). -/
  badReg : Option Byte
  /-- alu_en with alu_op. -/
  aluOp : Option (BitVec 2)
  /-- pc_src. -/
  pcSrc : PcSrc
  deriving DecidableEq, Repr

/-- The decoder on op_in, b1_in and b2_in; `none` is valid 0 (R83, 40_fetch_decode_execute.md R106, R107). An operand byte
not fetched counts as 0 (R126), which names a register. -/
def decoder (opIn : Byte) (b1In b2In : Option Byte) : Option DecoderOut :=
  (Op.ofByte? opIn).map fun op =>
    { op := op, len := BitVec.ofNat 2 op.len, usesRa := op.usesRa, usesRb := op.usesRb,
      badReg := op.badField? (b1In.getD 0#8) (b2In.getD 0#8), aluOp := op.aluOp, pcSrc := op.pcSrc }

/-! ## register_file and flag_register -/

/-- The register file's read data (10_state.md R27): ra_data, rb_data, sp_data. -/
structure RegReads where
  ra : Byte
  rb : Byte
  sp : Byte
  deriving DecidableEq, Repr

/-- The register file's read ports, on the registers as the step began (R27). -/
def regFileRead (x : Vector Byte 8) (raIdx rbIdx : Reg) : RegReads := { ra := x[raIdx], rb := x[rbIdx], sp := x[Reg.sp] }

/-- The register file's writes at the end of a step: with both ports on register 7, sp_wdata is stored (R27). -/
def regFileCommit (x : Vector Byte 8) (w : Option (Reg × Byte)) (sp : Option Byte) : Vector Byte 8 :=
  let x₁ := match w with
    | some (r, v) => x.set r v
    | none => x
  match sp with
  | some v => x₁.set Reg.sp v
  | none => x₁

/-- flag_register's outputs (10_state.md R37). -/
structure FlagReads where
  /-- fl_out. -/
  flOut : Byte
  /-- eq. -/
  eq : Bool
  deriving DecidableEq, Repr

/-- flag_register's read side: FL and its bit 0 (R37). -/
def flagRead (FL : Byte) : FlagReads := { flOut := FL, eq := FL.getLsbD 0 }

/-! ## stack_controller -/

/-- The stack_controller's outputs (43_stack.md R200). -/
structure StackOut where
  /-- sp_en, sp_wdata. -/
  sp : Option Byte
  /-- mem_addr, mem_we, mem_wdata: the one stack access, a write for PUSH and CALL, a read for POP and RET. -/
  mem : Option MemAccess
  /-- pop_val, for POP and RET. -/
  popVal : Option Byte
  /-- s_fault with s_cause and s_info. -/
  fault : Option (FaultCause × PcWord)
  deriving DecidableEq, Repr

/-- No output driven (s_op NONE). -/
def StackOut.idle : StackOut := { sp := none, mem := none, popVal := none, fault := none }

/-- A fault before any access (R201, R202, R213). -/
def StackOut.raise (cause : FaultCause) (info : PcWord) : StackOut := { StackOut.idle with fault := some (cause, info) }

/-- A push: the new SP is the address written (R207, R214). -/
def StackOut.push (sp v : Byte) : StackOut :=
  { StackOut.idle with sp := some sp, mem := some { addr := sp, wdata := some v } }

/-- A pop: the byte read at sp_in, and then the increment of `base` with its check (R202, R210, R217). -/
def StackOut.pop (limit spIn base v : Byte) : StackOut :=
  let out := { StackOut.idle with mem := some { addr := spIn, wdata := none }, popVal := some v }
  if limit.toNat ≤ base.toNat then { out with fault := some (.stackHigh, base.toPc) } else { out with sp := some (base + 1#8) }

/-- The stack_controller: the new SP, the stack access and the first stack fault (R200 to R202, R213). POP checks SP before
its read (R210), RET only after it, in the increment (R217). `toSp` says that
POP's destination is R7, where the increment is of the popped byte (R211; DESIGN CHOICE: notes/assumptions/9.md). -/
def stackController (op : StackOp) (limit spIn pushVal : Byte) (retAddr : PcWord) (memRdata : Byte → Byte) (toSp : Bool) :
    StackOut :=
  match op with
  | .none => .idle
  | .push => if spIn = 0#8 then .raise .stackLow 0#9 else .push (spIn - 1#8) pushVal
  | .call =>
    if 255 < retAddr.toNat then .raise .returnRange retAddr
    else if spIn = 0#8 then .raise .stackLow 0#9
    else .push (spIn - 1#8) (retAddr.setWidth 8)
  | .ret => .pop limit spIn spIn (memRdata spIn)
  | .pop =>
    if limit.toNat ≤ spIn.toNat then .raise .stackHigh spIn.toPc
    else .pop limit spIn (if toSp then memRdata spIn else spIn) (memRdata spIn)

/-! ## What CORE shows outside -/

/-- The execute_engine's status outputs (40_fetch_decode_execute.md R130, 10_state.md R31, R32), by their codes. The output
port is in `Signals`. -/
structure StatusPorts where
  status : BitVec 2
  fCause : BitVec 3
  fPc : BitVec 9
  fOpcode : BitVec 8
  fInfo : BitVec 9
  deriving DecidableEq, Repr

/-- The status outputs of a state. -/
def State.statusPorts (s : State) : StatusPorts :=
  { status := s.status.code, fCause := s.fault.cause.code, fPc := s.fault.pc, fOpcode := s.fault.opcode,
    fInfo := s.fault.info }

end Sys2Proof.Machine
end

