-- ==== Sys2Proof/Machine/Datapath.lean ====
section
/-! DEFINITION. One step as the blocks' ports carry it: the fetch_unit and decoder loop, start-of-step register reads with
forwarding (10_state.md R27, 40_fetch_decode_execute.md R124), the alu and the stack_controller, the next-pc selection
(R120) and one commit (R125). It is a second description of what `step` says in the order of the pseudocode; that the two
agree is a claim, and `step` does not use this file. -/

namespace Sys2Proof.Machine

/-- Everything one instruction drives into the state at its commit. -/
structure Signals where
  /-- The general write port: w_en, w_idx, w_data (10_state.md R27). -/
  w : Option (Reg × Byte)
  /-- The stack-pointer write port: sp_en, sp_wdata (R27). -/
  sp : Option Byte
  /-- fl_en, fl_in (R37). -/
  fl : Option Byte
  /-- pc_en, pc_in (R39). -/
  pc : Option PcWord
  /-- mem_addr, mem_we, mem_wdata: the one stack access (20_memory.md R51, R68). -/
  mem : Option MemAccess
  /-- out_valid, out_kind, out_data (R33). -/
  out : Option Event
  /-- HALT sets the status (R141). -/
  halt : Bool
  deriving DecidableEq, Repr

/-- The commit of a step's writes, all at once (40_fetch_decode_execute.md R125). -/
def State.commit (s : State) (g : Signals) : State :=
  { s with
    x := regFileCommit s.x g.w g.sp
    FL := g.fl.getD s.FL
    pc := g.pc.getD s.pc
    mem := s.mem.serve g.mem
    out := s.out ++ g.out.toList
    status := if g.halt then .halted else s.status }

/-- The next pc by pc_src; `none` is pc_en 0 (R39, R120). `target` is x[ra] or the popped byte. -/
def nextPc (op : Op) (pcOut : PcWord) (eq : Bool) (target : Byte) : Option PcWord :=
  match op.pcSrc with
  | .seq => some (pcOut + BitVec.ofNat 9 op.len)
  | .reg => some target.toPc
  | .popped => some target.toPc
  | .condEq => some (if eq then target.toPc else pcOut + 2#9)
  | .condNe => some (if eq then pcOut + 2#9 else target.toPc)
  | .hold => none

/-- The alu's part: nothing where alu_en is 0; an alu_op the alu lacks raises ALU_UNSUPPORTED (R113, R114). -/
def aluStage (op : Op) (a b : Byte) : Except (FaultCause × PcWord) AluOut :=
  match op.aluOp with
  | none => .ok { res := none, fl := none }
  | some code =>
    match alu code a b with
    | some o => .ok o
    | none => .error (.aluUnsupported, code.setWidth 9)

/-- The stack_controller's part (R115): push_val is x[ra], which for R7 is the decremented SP, forwarded (R124). -/
def stackStage (op : Op) (ra : Reg) (s : State) : StackOut :=
  let r := regFileRead s.x ra ra
  stackController op.stackOp s.cfg.stackLimit r.sp (if ra = Reg.sp then r.sp - 1#8 else r.ra) (s.pc + 2#9) s.mem.read
    (decide (ra = Reg.sp))

/-- The signals of one instruction with checked register fields, or its first fault. -/
def datapath (op : Op) (ra rb : Reg) (imm : Byte) (s : State) : Except (FaultCause × PcWord) Signals :=
  let r := regFileRead s.x ra rb
  match aluStage op r.ra r.rb with
  | .error e => .error e
  | .ok a =>
    let k := stackStage op ra s
    match k.fault with
    | some e => .error e
    | none =>
      let target := k.popVal.getD (if ra = Reg.sp then k.sp.getD r.ra else r.ra)
      let w := match op with
        | .loadImm => some (ra, imm)
        | .pop => k.popVal.map fun v => (ra, v)
        | _ => a.res.map fun v => (ra, v)
      let out := match op with
        | .printNum | .store => some { kind := .num, value := r.ra }
        | .printChar => some { kind := .char, value := r.ra }
        | _ => none
      .ok { w := w, sp := k.sp, fl := a.fl, pc := nextPc op s.pc (flagRead s.FL).eq target, mem := k.mem, out := out,
            halt := op == .halt }

/-- A register port's index: a field's low three bits (10_state.md R27). -/
def portIdx (f : Byte) : Reg := ⟨f.toNat % 8, by omega⟩

/-- The commit or the fault of one instruction with checked register fields (R125, 60_exceptions.md R264). -/
def engine (op : Op) (b1 b2 : Byte) (s : State) : Result :=
  match datapath op (portIdx b1) (portIdx b2) b2 s with
  | .error (cause, info) => takeFault op cause info s
  | .ok g => .next (s.commit g)

/-- One instruction by its operation and operand bytes, the decoder's register check before it (R83 bad_reg, R111). -/
def datapathExec (op : Op) (b1 b2 : Byte) (s : State) : Result :=
  match op.badField? b1 b2 with
  | some f => takeFault op .badRegister f.toPc s
  | none => engine op b1 b2 s

/-! ## The whole step -/

/-- The fetch_unit with len_in as the decoder answers op_out: first the opcode, then the operand bytes (R100, R102). -/
def fetchLoop (s : State) : FetchOut :=
  let unit := fun len => fetchUnit s.cfg.strictFetchWindow s.pc len s.mem.read
  match (unit none).opOut.bind fun op => decoder op none none with
  | none => unit none
  | some d => unit (some d.len)

/-- The operation and operand bytes that fetch_unit and decoder hand to the execute_engine, or the first fault of R126's
order. -/
def frontEnd (s : State) : Except Raise (Op × Byte × Byte) :=
  let f := fetchLoop s
  match f.opOut with
  | none => .error { cause := .fetchRange, opcode := 0#8, info := f.fault.getD 0#9 }
  | some op =>
    match decoder op f.b1Out f.b2Out with
    | none => .error { cause := .unknownOpcode, opcode := op, info := 0#9 }
    | some d =>
      match f.fault, d.badReg with
      | some a, _ => .error { cause := .fetchRange, opcode := op, info := a }
      | none, some field => .error { cause := .badRegister, opcode := op, info := field.toPc }
      | none, none => .ok (d.op, f.b1Out.getD 0#8, f.b2Out.getD 0#8)

/-- One step of the blocks. -/
def portStep (s : State) : Result :=
  match s.status with
  | .run =>
    match frontEnd s with
    | .error r => .next (s.enterFault r)
    | .ok (op, b1, b2) => engine op b1 b2 s
  | .halted => .fault .noStepWhenHalted
  | .faulted => .fault .noStepWhenFaulted

/-- Every access a step in status RUN makes at the memory port, in order: the fetch reads, then the one stack access
(20_memory.md R61, R68). -/
def stepAccesses (s : State) : List MemAccess :=
  ((fetchLoop s).memAddrs.map fun a => { addr := a, wdata := none }) ++
    match frontEnd s with
    | .error _ => []
    | .ok (op, b1, _) => (stackStage op (portIdx b1) s).mem.toList

end Sys2Proof.Machine
end

