-- ==== Sys2Proof/Machine/HostSide.lean ====
section
/-! DEFINITION. CORE's contract with the host before and after a run: the reset input (R130), the launch state (70_reset_and_hazards.md R296,
R297), the lines of output (41_data_and_io.md R146, R147) and the exit status (R299). -/

namespace Sys2Proof.Machine

/-- The reset input (40_fetch_decode_execute.md R130, 70_reset_and_hazards.md R290): every piece of CORE's state and memory
at its reset value, whatever the status was; the model arguments are no state of CORE's and stay (notes/assumptions/1.md).
It is the one thing that restarts a run that has ended (R101). -/
def State.applyReset (s : State) : State := { State.reset with cfg := s.cfg }

/-- The launch state of a run with an image of at most 256 bytes; a longer image the host refuses, and there is none
(R296, R297). -/
def State.launch (image : List Byte) : Option State :=
  if image.length ≤ 256 then some { State.reset with mem := Memory.writeFrom [] 0 image } else none

/-- The text of one event's line: NUM in decimal, CHAR by the host's rendering (R147). The line end is the host's. -/
def Event.line (e : Event) : String :=
  match e.kind with
  | .num => toString e.value.toNat
  | .char => Config.charRendering e.value

/-- One line per event, in order (R146). -/
def State.outputLines (s : State) : List String := s.out.map Event.line

/-- The exit status: none while the run goes on, 0 after HALT, some other number after a fault (R299). -/
def State.exitStatus (s : State) : Option Nat :=
  match s.status with
  | .run => none
  | .halted => some 0
  | .faulted => some (Config.faultExitLessOne + 1)

end Sys2Proof.Machine
end

