-- ==== Sys2Proof/Safety.lean ====
section
/-! DEFINITION. What claims call a good state and a good run: the invariant every step keeps, and runs in the terms of
70_reset_and_hazards.md R298. -/

namespace Sys2Proof.Machine

/-- The fault record is valid exactly in status FAULTED, and all zeros otherwise (10_state.md R32). -/
def State.recordOk (s : State) : Bool :=
  match s.status with
  | .run => s.fault == .zero
  | .halted => s.fault == .zero
  | .faulted => s.fault.cause != .noFault

/-- What holds at reset and every step keeps. -/
structure State.Inv (s : State) : Prop where
  /-- Memory is in its canonical form: 256 cells at most, each listed once, none 0 (20_memory.md R50). -/
  memory : s.mem.wf = true
  /-- FL is 0x00 or one of COMPARE's three values (10_state.md R35). -/
  flags : legalFL s.FL = true
  /-- pc names a cell or is 256 (R29). -/
  pc : s.pc.toNat ≤ 256
  /-- STACK_LIMIT is in its range (43_stack.md R203). -/
  limit : 1 ≤ s.cfg.stackLimit.toNat
  /-- The fault record agrees with the status (R32). -/
  record : s.recordOk = true

/-- A run of `n` steps ends in `t`, every step having a next state. -/
def Runs (n : Nat) (s t : State) : Prop := Host.Core.run Sys2Proof.core n s = .next t

/-- `t` is reached from `s` in some number of steps. -/
def Reaches (s t : State) : Prop := ∃ n, Runs n s t

/-- A run that has ended (R298). -/
def State.Ended (s : State) : Prop := s.status = .halted ∨ s.status = .faulted

/-- No state reached from `s` is faulted: the run halts or goes on for ever. -/
def FaultFree (s : State) : Prop := ∀ t, Reaches s t → t.status ≠ .faulted

end Sys2Proof.Machine
end

