-- ==== Sys2Proof/Certificates/Slice0/Obligations.lean ====
section
/-! DEFINITION. The statements for the provers, each with the rule of spec/ it formalises. Where a docstring names a
decision D<n> (92_eei_decisions.md), the spec marks that part of its own rule as its own choice. -/

namespace Sys2Proof.Claims

open Sys2Proof.Machine

/-- The byte at pc + k. -/
def cell (s : State) (k : Nat) : Byte := s.mem.read (BitVec.ofNat 8 (s.pc.toNat + k))

/-- Nothing stops the opcode fetch: status RUN, pc names a cell, and the strict window, if on, lies in memory. -/
def OpcodeFetched (s : State) : Prop :=
  s.status = .run ∧ s.pc.toNat < 256 ∧ (s.cfg.strictFetchWindow = true → s.pc.toNat + 2 < 256)

/-- The bytes `bs` lie at pc, all in memory, and nothing stops the fetch of them. -/
def Placed (s : State) (bs : List Byte) : Prop :=
  OpcodeFetched s ∧ s.pc.toNat + bs.length ≤ 256 ∧ ∀ k (h : k < bs.length), cell s k = bs[k]

/-- The state after `raise Fault(cause, info)`, written out: five writes and nothing else (60_exceptions.md R262). -/
def faulted (s : State) (cause : FaultCause) (opcode : Byte) (info : PcWord) : State :=
  { s with status := .faulted, fault := { cause := cause, pc := s.pc, opcode := opcode, info := info } }

/-- The FETCH_RANGE line of an instruction of the given opcode and length: raised when its last byte would lie at 256 or
above. Under STRICT_FETCH_WINDOW the opcode has not been read. -/
def OperandsPastEnd (opcode : Byte) (len : Nat) : Prop :=
  ∀ s : State, s.status = .run → s.pc.toNat < 256 → cell s 0 = opcode → 256 < s.pc.toNat + len →
    step s = .next (faulted s .fetchRange (if s.cfg.strictFetchWindow then 0#8 else opcode) 256#9)

/-- The FETCH_RANGE line of a one-byte instruction: only under STRICT_FETCH_WINDOW (40_fetch_decode_execute.md R104). -/
def StrictPastEnd : Prop :=
  ∀ s : State, s.status = .run → s.pc.toNat < 256 → s.cfg.strictFetchWindow = true → 254 ≤ s.pc.toNat →
    step s = .next (faulted s .fetchRange 0#8 256#9)

/-- The fifteen opcode bytes, in the order of 30_encoding.md R76. -/
def opcodes : List Byte :=
  [0x01#8, 0x47#8, 0x82#8, 0xA2#8, 0x45#8, 0x46#8, 0x50#8, 0x11#8, 0xA0#8, 0x84#8, 0x54#8, 0x48#8, 0xA7#8, 0x55#8,
   0x56#8]

/-- The length of a valid opcode: bits 7..6, plus 1 (R77). -/
def lenOf (opcode : Byte) : Nat := opcode.toNat / 64 + 1

/-- Byte 1 of a valid opcode is a register field: every length of 2 or 3 (R84). -/
def usesRaOf (opcode : Byte) : Bool := 2 ≤ lenOf opcode

/-- Byte 2 is a register field: ADD, MUL and COMPARE only (R84). -/
def usesRbOf (opcode : Byte) : Bool := opcode == 0xA0#8 || opcode == 0xA2#8 || opcode == 0xA7#8

/-- The instruction of an opcode byte and its operand bytes, row by row (R76, 40_fetch_decode_execute.md R112). -/
def ruleOf (opcode b1 b2 : Byte) : Instr :=
  if opcode = 0x01#8 then .halt
  else if opcode = 0x47#8 then .printNum b1
  else if opcode = 0x82#8 then .loadImm b1 b2
  else if opcode = 0xA2#8 then .mul b1 b2
  else if opcode = 0x45#8 then .push b1
  else if opcode = 0x46#8 then .pop b1
  else if opcode = 0x50#8 then .call b1
  else if opcode = 0x11#8 then .ret
  else if opcode = 0xA0#8 then .add b1 b2
  else if opcode = 0x84#8 then .store b1 b2
  else if opcode = 0x54#8 then .jump b1
  else if opcode = 0x48#8 then .printChar b1
  else if opcode = 0xA7#8 then .compare b1 b2
  else if opcode = 0x55#8 then .jumpIfEq b1
  else .jumpIfNe b1

/-- The step of R126, line by line, for a state in status RUN. -/
def stepPseudocode (s : State) : Result :=
  if s.pc.toNat ≥ 256 then .next (faulted s .fetchRange 0#8 s.pc)
  else if s.cfg.strictFetchWindow = true ∧ s.pc.toNat + 2 ≥ 256 then .next (faulted s .fetchRange 0#8 256#9)
  else
    let op := cell s 0
    if op ∉ opcodes then .next (faulted s .unknownOpcode op 0#9)
    else
      let len := lenOf op
      if s.pc.toNat + len - 1 ≥ 256 then .next (faulted s .fetchRange op 256#9)
      else
        let b1 := if len ≥ 2 then cell s 1 else 0#8
        let b2 := if len = 3 then cell s 2 else 0#8
        if usesRaOf op = true ∧ b1.toNat ≥ 8 then .next (faulted s .badRegister op b1.toPc)
        else if usesRbOf op = true ∧ b2.toNat ≥ 8 then .next (faulted s .badRegister op b2.toPc)
        else exec (ruleOf op b1 b2) s

/-- The registers an instruction may write, by the table of 10_state.md R23. -/
def writesReg (i : Instr) (r : Reg) : Bool :=
  match i with
  | .loadImm ra _ | .add ra _ | .mul ra _ => ra == r.byte
  | .push _ | .call _ | .ret => r == Reg.sp
  | .pop ra => ra == r.byte || r == Reg.sp
  | .halt | .printNum _ | .printChar _ | .store _ _ | .compare _ _ | .jump _ | .jumpIfEq _ | .jumpIfNe _ => false

/-- The instructions that emit an event (10_state.md R33). -/
def emits : Instr → Bool
  | .printNum _ | .printChar _ | .store _ _ => true
  | .halt | .loadImm _ _ | .mul _ _ | .push _ | .pop _ | .call _ | .ret | .add _ _ | .jump _ | .compare _ _
  | .jumpIfEq _ | .jumpIfNe _ => false

/-- The instructions that store to memory (20_memory.md R56). -/
def stores : Instr → Bool
  | .push _ | .call _ => true
  | .halt | .printNum _ | .printChar _ | .store _ _ | .loadImm _ _ | .mul _ _ | .pop _ | .ret | .add _ _ | .jump _
  | .compare _ _ | .jumpIfEq _ | .jumpIfNe _ => false

/-- The stack access of an instruction, by the tables of 20_memory.md R56 and R68 and the pseudocode of 43_stack.md: none
where a stack fault comes before it, and none from the instructions that reach no memory. PUSH, POP and CALL check before
their access (R207, R210, R214); RET reads before its increment can fault (R217). -/
def stackAccesses (i : Instr) (s : State) : List MemAccess :=
  match i with
  | .push ra =>
    if s.x[7] = 0#8 then []
    else [{ addr := s.x[7] - 1#8, wdata := some (if ra = 7#8 then s.x[7] - 1#8 else s.x[portIdx ra]) }]
  | .call _ =>
    if 255 < s.pc.toNat + 2 ∨ s.x[7] = 0#8 then []
    else [{ addr := s.x[7] - 1#8, wdata := some (BitVec.ofNat 8 (s.pc.toNat + 2)) }]
  | .pop _ => if s.cfg.stackLimit.toNat ≤ s.x[7].toNat then [] else [{ addr := s.x[7], wdata := none }]
  | .ret => [{ addr := s.x[7], wdata := none }]
  | .halt | .printNum _ | .printChar _ | .store _ _ | .loadImm _ _ | .mul _ _ | .add _ _ | .jump _ | .compare _ _
  | .jumpIfEq _ | .jumpIfNe _ => []

/-- The reads of an instruction's own `n` bytes, from pc on (40_fetch_decode_execute.md R102). -/
def fetchReads (s : State) (n : Nat) : List MemAccess :=
  (List.range n).map fun k => { addr := BitVec.ofNat 8 (s.pc.toNat + k), wdata := none }

end Sys2Proof.Claims

open Sys2Proof Sys2Proof.Machine Sys2Proof.Claims

/-! ## Encoding -/

/-- 30_encoding.md R88 and 95_test_vectors.md: words written out from the spec decode to their instructions, one of every
format and family. -/
def Obligations.SpecWordsDecode : Prop :=
  decode [0b00000001#8] = .ok (.halt, []) ∧
  decode [0b10000010#8, 0b00000000#8, 0b00001000#8] = .ok (.loadImm 0#8 8#8, []) ∧
  decode [0b10100010#8, 0b00000000#8, 0b00000001#8] = .ok (.mul 0#8 1#8, []) ∧
  decode [0b01000111#8, 0b00000000#8] = .ok (.printNum 0#8, []) ∧
  decode [0b01010000#8, 0b00000001#8] = .ok (.call 1#8, []) ∧
  decode [0b00010001#8] = .ok (.ret, []) ∧
  decode [0b01010110#8, 0b00000011#8] = .ok (.jumpIfNe 3#8, []) ∧
  decode [0b10000100#8, 0b00000001#8, 0b00000000#8] = .ok (.store 1#8 0#8, []) ∧
  decode [0b10100000#8, 0b00001000#8, 0b00000000#8] = .error (.badRegister 0xA0#8 8#8) ∧
  decode [0b01000111#8] = .error (.missingOperand 0x47#8)

/-- R83 and R108: the decoder's table, row by row in the order of R76: op_id, opcode, len, uses_ra, uses_rb, alu_op,
pc_src. -/
def Obligations.DecoderTableRows : Prop :=
  (Op.all.map fun op => (op.opId, op.opcode, op.len, op.usesRa, op.usesRb, op.aluOp, op.pcSrc)) =
    [(0#4, 0x01#8, 1, false, false, none, .hold), (1#4, 0x47#8, 2, true, false, none, .seq),
     (2#4, 0x82#8, 3, true, false, none, .seq), (3#4, 0xA2#8, 3, true, true, some 1#2, .seq),
     (4#4, 0x45#8, 2, true, false, none, .seq), (5#4, 0x46#8, 2, true, false, none, .seq),
     (6#4, 0x50#8, 2, true, false, none, .reg), (7#4, 0x11#8, 1, false, false, none, .popped),
     (8#4, 0xA0#8, 3, true, true, some 0#2, .seq), (9#4, 0x84#8, 3, true, false, none, .seq),
     (10#4, 0x54#8, 2, true, false, none, .reg), (11#4, 0x48#8, 2, true, false, none, .seq),
     (12#4, 0xA7#8, 3, true, true, some 2#2, .seq), (13#4, 0x55#8, 2, true, false, none, .condEq),
     (14#4, 0x56#8, 2, true, false, none, .condNe)] ∧
  ∀ op : Op, op ∈ Op.all

/-- R70: an instruction is 1, 2 or 3 bytes long, and its length is fixed by its opcode. -/
def Obligations.LengthIsFixedByOpcode : Prop :=
  ∀ i j : Instr, ((encode i).length = 1 ∨ (encode i).length = 2 ∨ (encode i).length = 3) ∧
    ((encode i).head? = (encode j).head? → (encode i).length = (encode j).length)

/-- R77 and R78, both derived by the spec from its own table: bits 7..6 of an opcode are its length less one, bit 5 marks
the ALU operations, bit 4 those whose next pc is not only the sequential one. -/
def Obligations.OpcodeBitsAgreeWithTheTable : Prop :=
  ∀ op : Op, op.len = lenOf op.opcode ∧ op.opcode.getLsbD 5 = op.aluOp.isSome ∧
    (op.opcode.getLsbD 4 = true ↔ op.pcSrc ≠ .seq ∧ op.pcSrc ≠ .hold)

/-- R76: the opcode map. A byte outside the fifteen is rejected whatever follows it, there are 241 of them (R80), and a
byte of the fifteen with bytes enough and good register fields gives its row's instruction. -/
def Obligations.OpcodeMapIsComplete : Prop :=
  (∀ b rest, b ∉ opcodes → decode (b :: rest) = .error (.unknownOpcode b)) ∧
  ((List.range 256).filter fun n => (Op.ofByte? (BitVec.ofNat 8 n)).isNone).length = 241 ∧
  (∀ b b1 b2 rest, b ∈ opcodes → WellFormed (ruleOf b b1 b2) →
    decode (b :: b1 :: b2 :: rest) = .ok (ruleOf b b1 b2, (b :: b1 :: b2 :: rest).drop (lenOf b)))

/-- R71 to R76: decoding the bytes of a well-formed instruction gives it back, and leaves what follows it. -/
def Obligations.DecodeOfEncode : Prop :=
  ∀ i rest, WellFormed i → decode (encode i ++ rest) = .ok (i, rest)

/-- R71 to R76, the other way: bytes that decode are the bytes of the instruction they decode to, and it is well formed. -/
def Obligations.EncodeOfDecode : Prop :=
  ∀ bs i rest, decode bs = .ok (i, rest) → WellFormed i ∧ bs = encode i ++ rest

/-! ## The step -/

/-- R112: where the bytes at pc are a well-formed instruction's, the step is that instruction's, on that very state (each
meaning itself moves pc past its bytes). -/
def Obligations.StepRunsTheDecodedInstruction : Prop :=
  ∀ s i, WellFormed i → Placed s (encode i) → step s = exec i s

/-- R126 (D2, D3, D4, D7): the step is the spec's pseudocode. -/
def Obligations.StepIsThePseudocode : Prop :=
  ∀ s : State, s.status = .run → step s = stepPseudocode s

/-- R101, R31, R263 (D7): in status RUN a step always has a next state; in HALTED and in FAULTED there is no step, and the
model stops by name. -/
def Obligations.StepExistsExactlyInRun : Prop :=
  ∀ s : State, (s.status = .run ↔ ∃ t, step s = .next t) ∧
    (s.status = .halted ↔ step s = .fault .noStepWhenHalted) ∧
    (s.status = .faulted ↔ step s = .fault .noStepWhenFaulted)

/-- Every instruction, whatever its operand bytes, answers a next state from every state: its effect or the fault it
raises (R11). -/
def Obligations.EveryInstructionAnswersANextState : Prop :=
  ∀ i s, ∃ t, exec i s = .next t

/-- R106: an opcode byte outside the fifteen raises UNKNOWN_OPCODE with that byte and pc, info 0, whatever the bytes
after it, and nothing else changes. -/
def Obligations.UnknownOpcodeFaults : Prop :=
  ∀ s : State, OpcodeFetched s → cell s 0 ∉ opcodes → step s = .next (faulted s .unknownOpcode (cell s 0) 0#9)

/-- R103 and R104 (D3, D4): FETCH_RANGE on pc itself, on the strict window, and on an operand byte, each with its info and
opcode. -/
def Obligations.FetchRangeFaults : Prop :=
  (∀ s : State, s.status = .run → 256 ≤ s.pc.toNat → step s = .next (faulted s .fetchRange 0#8 s.pc)) ∧
  (∀ s : State, s.status = .run → s.pc.toNat < 256 → s.cfg.strictFetchWindow = true → 256 ≤ s.pc.toNat + 2 →
    step s = .next (faulted s .fetchRange 0#8 256#9)) ∧
  (∀ s : State, OpcodeFetched s → cell s 0 ∈ opcodes → 256 < s.pc.toNat + lenOf (cell s 0) →
    step s = .next (faulted s .fetchRange (cell s 0) 256#9))

/-- R111 (D2): BAD_REGISTER on byte 1, and on byte 2 of ADD, MUL and COMPARE when byte 1 is good, not-taken conditional
jumps included. -/
def Obligations.BadRegisterFaults : Prop :=
  ∀ s : State, OpcodeFetched s → cell s 0 ∈ opcodes → s.pc.toNat + lenOf (cell s 0) ≤ 256 →
    (usesRaOf (cell s 0) = true → 8 ≤ (cell s 1).toNat →
      step s = .next (faulted s .badRegister (cell s 0) (cell s 1).toPc)) ∧
    (usesRbOf (cell s 0) = true → (cell s 1).toNat < 8 → 8 ≤ (cell s 2).toNat →
      step s = .next (faulted s .badRegister (cell s 0) (cell s 2).toPc))

/-- R262 and R264 (D7, D8): a step that faults changes the status and the fault record and nothing else, and f_pc is the
pc of the instruction. -/
def Obligations.FaultsArePrecise : Prop :=
  ∀ s t, step s = .next t → t.status = .faulted →
    t = { s with status := .faulted, fault := t.fault } ∧ t.fault.pc = s.pc ∧ t.fault.cause ≠ .noFault

/-- R260 (D2, D3, D4, D8, D10, D11, D13, D26): a recorded cause has its condition and its info; no step records cause 7
(R114). -/
def Obligations.EveryFaultHasItsCondition : Prop :=
  ∀ s t, step s = .next t → t.status = .faulted →
    match t.fault.cause with
    | .noFault => False
    | .unknownOpcode => cell s 0 ∉ opcodes ∧ t.fault.opcode = cell s 0 ∧ t.fault.info = 0#9
    | .fetchRange =>
      (256 ≤ s.pc.toNat ∧ t.fault.opcode = 0#8 ∧ t.fault.info = s.pc) ∨
      (s.pc.toNat < 256 ∧ s.cfg.strictFetchWindow = true ∧ 256 ≤ s.pc.toNat + 2 ∧ t.fault.opcode = 0#8 ∧
        t.fault.info = 256#9) ∨
      (OpcodeFetched s ∧ cell s 0 ∈ opcodes ∧ 256 < s.pc.toNat + lenOf (cell s 0) ∧ t.fault.opcode = cell s 0 ∧
        t.fault.info = 256#9)
    | .badRegister =>
      t.fault.opcode = cell s 0 ∧
        ((usesRaOf (cell s 0) = true ∧ 8 ≤ (cell s 1).toNat ∧ t.fault.info = (cell s 1).toPc) ∨
          (usesRbOf (cell s 0) = true ∧ 8 ≤ (cell s 2).toNat ∧ t.fault.info = (cell s 2).toPc))
    | .stackLow =>
      (cell s 0 = 0x45#8 ∨ cell s 0 = 0x50#8) ∧ s.x[7] = 0#8 ∧ t.fault.opcode = cell s 0 ∧ t.fault.info = 0#9
    | .stackHigh =>
      t.fault.opcode = cell s 0 ∧
        (((cell s 0 = 0x46#8 ∨ cell s 0 = 0x11#8) ∧ s.cfg.stackLimit.toNat ≤ s.x[7].toNat ∧
            t.fault.info = s.x[7].toPc) ∨
          (cell s 0 = 0x46#8 ∧ cell s 1 = 7#8 ∧ s.cfg.stackLimit.toNat ≤ (s.mem.read s.x[7]).toNat ∧
            t.fault.info = (s.mem.read s.x[7]).toPc))
    | .returnRange =>
      cell s 0 = 0x50#8 ∧ 255 < s.pc.toNat + 2 ∧ t.fault.opcode = cell s 0 ∧
        t.fault.info.toNat = s.pc.toNat + 2
    | .aluUnsupported => False

/-- R114 (D26): an alu_op outside ADD, MUL and COMPARE, on registers that exist, raises ALU_UNSUPPORTED with the code as
info. The decoder never drives one. -/
def Obligations.UnsupportedAluOpFaults : Prop :=
  (∀ op (a b : Reg) s, executeAlu op 3#2 a.byte b.byte s = .next (faulted s .aluUnsupported op.opcode 3#9)) ∧
  ∀ op : Op, op.aluOp ≠ some 3#2

/-! ## Data and I/O -/

/-- 41_data_and_io.md R141 (D6): HALT stops the machine, pc held and nothing else changed; its only fault is the strict
window's (R104, D4). That no step follows is R101 (D7); that `step` then answers `noStepWhenHalted` is the model's own
choice, log 2. -/
def Obligations.HaltStopsTheMachine : Prop :=
  encode .halt = [0x01#8] ∧
  (∀ s : State, exec .halt s = .next { s with status := .halted }) ∧
  (∀ s t : State, exec .halt s = .next t → step t = .fault .noStepWhenHalted) ∧
  StrictPastEnd

/-- R142: LOAD_IMM writes its immediate, any of 0..255, to any register, R7 included. The two faults are the spec's own
decisions (R111, D2; R103 and R104, D3 and D4), here and in the statements of the other instructions. -/
def Obligations.LoadImmWritesItsImmediate : Prop :=
  (∀ ra imm, encode (.loadImm ra imm) = [0x82#8, ra, imm]) ∧
  (∀ (a : Reg) imm s, exec (.loadImm a.byte imm) s = .next { s with x := s.x.set a imm, pc := s.pc + 3#9 }) ∧
  (∀ ra imm s, 8 ≤ ra.toNat → exec (.loadImm ra imm) s = .next (faulted s .badRegister 0x82#8 ra.toPc)) ∧
  OperandsPastEnd 0x82#8 3

/-- R143: PRINT_NUM emits (NUM, x[ra]) after every earlier event, and changes no register. Faults: R111 (D2), R103, R104
(D3, D4). -/
def Obligations.PrintNumEmitsTheRegister : Prop :=
  (∀ ra, encode (.printNum ra) = [0x47#8, ra]) ∧
  (∀ (a : Reg) s, exec (.printNum a.byte) s =
    .next { s with out := s.out ++ [{ kind := .num, value := s.x[a] }], pc := s.pc + 2#9 }) ∧
  (∀ ra s, 8 ≤ ra.toNat → exec (.printNum ra) s = .next (faulted s .badRegister 0x47#8 ra.toPc)) ∧
  OperandsPastEnd 0x47#8 2

/-- R144 (D15): PRINT_CHAR emits (CHAR, x[ra]). Faults: R111 (D2), R103, R104 (D3, D4). -/
def Obligations.PrintCharEmitsTheRegister : Prop :=
  (∀ ra, encode (.printChar ra) = [0x48#8, ra]) ∧
  (∀ (a : Reg) s, exec (.printChar a.byte) s =
    .next { s with out := s.out ++ [{ kind := .char, value := s.x[a] }], pc := s.pc + 2#9 }) ∧
  (∀ ra s, 8 ≤ ra.toNat → exec (.printChar ra) s = .next (faulted s .badRegister 0x48#8 ra.toPc)) ∧
  OperandsPastEnd 0x48#8 2

/-- R152 (D14): STORE emits (NUM, x[ra]) and advances by 3; its byte 2 is ignored, and memory is unchanged.
Faults: R111 (D2), R103, R104 (D3, D4). -/
def Obligations.StorePrintsAndDoesNotStore : Prop :=
  (∀ ra x, encode (.store ra x) = [0x84#8, ra, x]) ∧
  (∀ (a : Reg) x s, exec (.store a.byte x) s =
    .next { s with out := s.out ++ [{ kind := .num, value := s.x[a] }], pc := s.pc + 3#9 }) ∧
  (∀ ra x s, 8 ≤ ra.toNat → exec (.store ra x) s = .next (faulted s .badRegister 0x84#8 ra.toPc)) ∧
  OperandsPastEnd 0x84#8 3

/-! ## Arithmetic -/

/-- 42_alu.md R176, R175: ADD writes the sum modulo 256 to x[ra], and no flag. The same register may be both operands.
Faults: R111 (D2), R103, R104 (D3, D4). -/
def Obligations.AddWritesTheSumModulo256 : Prop :=
  (∀ ra rb, encode (.add ra rb) = [0xA0#8, ra, rb]) ∧
  (∀ (a b : Reg) s, exec (.add a.byte b.byte) s =
    .next { s with x := s.x.set a (BitVec.ofNat 8 ((s.x[a].toNat + s.x[b].toNat) % 256)), pc := s.pc + 3#9 }) ∧
  (∀ ra rb s, 8 ≤ ra.toNat → exec (.add ra rb) s = .next (faulted s .badRegister 0xA0#8 ra.toPc)) ∧
  (∀ (a : Reg) rb s, 8 ≤ rb.toNat → exec (.add a.byte rb) s = .next (faulted s .badRegister 0xA0#8 rb.toPc)) ∧
  OperandsPastEnd 0xA0#8 3

/-- R177, R175: MUL writes the low 8 bits of the exact product to x[ra], and no flag. Faults: R111 (D2), R103, R104 (D3,
D4). -/
def Obligations.MulWritesTheProductModulo256 : Prop :=
  (∀ ra rb, encode (.mul ra rb) = [0xA2#8, ra, rb]) ∧
  (∀ (a b : Reg) s, exec (.mul a.byte b.byte) s =
    .next { s with x := s.x.set a (BitVec.ofNat 8 (s.x[a].toNat * s.x[b].toNat % 256)), pc := s.pc + 3#9 }) ∧
  (∀ ra rb s, 8 ≤ ra.toNat → exec (.mul ra rb) s = .next (faulted s .badRegister 0xA2#8 ra.toPc)) ∧
  (∀ (a : Reg) rb s, 8 ≤ rb.toNat → exec (.mul a.byte rb) s = .next (faulted s .badRegister 0xA2#8 rb.toPc)) ∧
  OperandsPastEnd 0xA2#8 3

/-- R180 (D29): COMPARE writes all of FL with one of 4, 2 and 1 by the unsigned order, and no register. Faults:
R111 (D2), R103, R104 (D3, D4). -/
def Obligations.CompareSetsOneFlagByUnsignedOrder : Prop :=
  (∀ ra rb, encode (.compare ra rb) = [0xA7#8, ra, rb]) ∧
  (∀ (a b : Reg) s, exec (.compare a.byte b.byte) s =
    .next { s with
      FL := if s.x[a].toNat < s.x[b].toNat then 4#8 else if s.x[b].toNat < s.x[a].toNat then 2#8 else 1#8
      pc := s.pc + 3#9 }) ∧
  (∀ ra rb s, 8 ≤ ra.toNat → exec (.compare ra rb) s = .next (faulted s .badRegister 0xA7#8 ra.toPc)) ∧
  (∀ (a : Reg) rb s, 8 ≤ rb.toNat → exec (.compare a.byte rb) s = .next (faulted s .badRegister 0xA7#8 rb.toPc)) ∧
  OperandsPastEnd 0xA7#8 3

/-- R181: the source's two laws of the alu, over all register pairs and all values: ADD and MUL modulo 256, and COMPARE
setting exactly one of E, G and L by the integer order. -/
def Obligations.AluLawsOfTheSource : Prop :=
  ∀ (a b : Reg) (s : State),
    (∃ t, exec (.add a.byte b.byte) s = .next t ∧ t.x[a].toNat = (s.x[a].toNat + s.x[b].toNat) % 256) ∧
    (∃ t, exec (.mul a.byte b.byte) s = .next t ∧ t.x[a].toNat = (s.x[a].toNat * s.x[b].toNat) % 256) ∧
    (∃ t, exec (.compare a.byte b.byte) s = .next t ∧
      (t.flagL = true ↔ s.x[a].toNat < s.x[b].toNat) ∧ (t.flagG = true ↔ s.x[b].toNat < s.x[a].toNat) ∧
      (t.flagE = true ↔ s.x[a].toNat = s.x[b].toNat) ∧
      ((t.flagL = true ∧ t.flagG = false ∧ t.flagE = false) ∨ (t.flagL = false ∧ t.flagG = true ∧ t.flagE = false) ∨
        (t.flagL = false ∧ t.flagG = false ∧ t.flagE = true)))

/-! ## Stack -/

/-- 43_stack.md R207, R201 (D10, D12): PUSH decrements SP and writes x[ra], read after the decrement, to the cell SP
then names; from SP = 0 it raises STACK_LOW. PUSH R7 stores the decremented SP. Other faults: R111 (D2), R103, R104 (D3, D4). -/
def Obligations.PushStoresBelowTheStack : Prop :=
  (∀ ra, encode (.push ra) = [0x45#8, ra]) ∧
  (∀ (a : Reg) s, s.x[7] ≠ 0#8 → exec (.push a.byte) s =
    .next { s with
      x := s.x.set 7 (s.x[7] - 1#8)
      mem := s.mem.write (s.x[7] - 1#8) (if a = 7 then s.x[7] - 1#8 else s.x[a])
      pc := s.pc + 2#9 }) ∧
  (∀ (a : Reg) s, s.x[7] = 0#8 → exec (.push a.byte) s = .next (faulted s .stackLow 0x45#8 0#9)) ∧
  (∀ ra s, 8 ≤ ra.toNat → exec (.push ra) s = .next (faulted s .badRegister 0x45#8 ra.toPc)) ∧
  OperandsPastEnd 0x45#8 2

/-- R210, R211, R202 (D11, D12): POP below STACK_LIMIT reads mem[SP] into x[ra] and increments SP; POP R7 leaves the
popped byte plus one, if that byte is below the limit; otherwise STACK_HIGH, with SP or the popped byte as info.
Other faults: R111 (D2), R103, R104 (D3, D4). -/
def Obligations.PopReadsTheTopOfTheStack : Prop :=
  (∀ ra, encode (.pop ra) = [0x46#8, ra]) ∧
  (∀ (a : Reg) s, a ≠ 7 → s.x[7].toNat < s.cfg.stackLimit.toNat → exec (.pop a.byte) s =
    .next { s with x := (s.x.set a (s.mem.read s.x[7])).set 7 (s.x[7] + 1#8), pc := s.pc + 2#9 }) ∧
  (∀ s : State, s.x[7].toNat < s.cfg.stackLimit.toNat →
    (s.mem.read s.x[7]).toNat < s.cfg.stackLimit.toNat → exec (.pop 7#8) s =
    .next { s with x := s.x.set 7 (s.mem.read s.x[7] + 1#8), pc := s.pc + 2#9 }) ∧
  (∀ (a : Reg) s, s.cfg.stackLimit.toNat ≤ s.x[7].toNat → exec (.pop a.byte) s =
    .next (faulted s .stackHigh 0x46#8 s.x[7].toPc)) ∧
  (∀ s : State, s.x[7].toNat < s.cfg.stackLimit.toNat →
    s.cfg.stackLimit.toNat ≤ (s.mem.read s.x[7]).toNat → exec (.pop 7#8) s =
    .next (faulted s .stackHigh 0x46#8 (s.mem.read s.x[7]).toPc)) ∧
  (∀ ra s, 8 ≤ ra.toNat → exec (.pop ra) s = .next (faulted s .badRegister 0x46#8 ra.toPc)) ∧
  OperandsPastEnd 0x46#8 2

/-- R213, R214 (D10, D12, D13): CALL pushes pc + 2 and jumps to x[ra], read after the decrement; RETURN_RANGE at 254
comes before STACK_LOW. CALL R7 jumps to the decremented SP. A pc of 255 or more never runs a CALL in a step.
Other faults: R111 (D2), R103, R104 (D3, D4). -/
def Obligations.CallPushesTheReturnAddressAndJumps : Prop :=
  (∀ ra, encode (.call ra) = [0x50#8, ra]) ∧
  (∀ (a : Reg) s, s.pc.toNat + 2 ≤ 255 → s.x[7] ≠ 0#8 → exec (.call a.byte) s =
    .next { s with
      x := s.x.set 7 (s.x[7] - 1#8)
      mem := s.mem.write (s.x[7] - 1#8) (BitVec.ofNat 8 (s.pc.toNat + 2))
      pc := (if a = 7 then s.x[7] - 1#8 else s.x[a]).setWidth 9 }) ∧
  (∀ (a : Reg) s, s.pc.toNat = 254 → exec (.call a.byte) s = .next (faulted s .returnRange 0x50#8 256#9)) ∧
  (∀ (a : Reg) s, s.pc.toNat + 2 ≤ 255 → s.x[7] = 0#8 → exec (.call a.byte) s =
    .next (faulted s .stackLow 0x50#8 0#9)) ∧
  (∀ ra s, 8 ≤ ra.toNat → exec (.call ra) s = .next (faulted s .badRegister 0x50#8 ra.toPc)) ∧
  OperandsPastEnd 0x50#8 2

/-- R217, R202 (D11): RET pops a byte into pc below STACK_LIMIT, and raises STACK_HIGH at or above it; under the
strict window FETCH_RANGE (R104, D4). -/
def Obligations.RetPopsIntoThePc : Prop :=
  encode .ret = [0x11#8] ∧
  (∀ s : State, s.x[7].toNat < s.cfg.stackLimit.toNat → exec .ret s =
    .next { s with x := s.x.set 7 (s.x[7] + 1#8), pc := (s.mem.read s.x[7]).setWidth 9 }) ∧
  (∀ s : State, s.cfg.stackLimit.toNat ≤ s.x[7].toNat → exec .ret s =
    .next (faulted s .stackHigh 0x11#8 s.x[7].toPc)) ∧
  StrictPastEnd

/-- 40_fetch_decode_execute.md R121: the byte a CALL leaves at the top of the stack is the CALL's address plus 2. -/
def Obligations.CallsReturnAddressIsPcPlusTwo : Prop :=
  ∀ (s t : State) (a : Reg), s.mem.wf = true → exec (.call a.byte) s = .next t → t.status ≠ .faulted →
    (t.mem.read t.x[7]).toNat = s.pc.toNat + 2

/-- R209, derived by the spec: PUSH then POP into the same register, R7 included, from an SP in 1..STACK_LIMIT, leaves
every register as it was and the cell below SP with the pushed byte. -/
def Obligations.PushThenPopRestoresTheRegisters : Prop :=
  ∀ (s : State) (a : Reg), s.mem.wf = true → 1 ≤ s.x[7].toNat → s.x[7].toNat ≤ s.cfg.stackLimit.toNat →
    ∃ t u, exec (.push a.byte) s = .next t ∧ exec (.pop a.byte) t = .next u ∧ u.x = s.x ∧ u.pc = s.pc + 4#9 ∧
      u.status = s.status ∧ u.FL = s.FL ∧ u.out = s.out ∧ ∀ b, b ≠ s.x[7] - 1#8 → u.mem.read b = s.mem.read b

/-- R215, derived by the spec: after a CALL, a RET made in any later state with the same SP and the same byte in the
return address's cell goes to the address after the CALL and restores SP. -/
def Obligations.CallThenRetReturnsAfterTheCall : Prop :=
  ∀ (s t u : State) (a : Reg), s.mem.wf = true → s.x[7].toNat ≤ u.cfg.stackLimit.toNat →
    exec (.call a.byte) s = .next t → t.status ≠ .faulted →
    u.x[7] = t.x[7] → u.mem.read t.x[7] = t.mem.read t.x[7] →
    ∃ v, exec .ret u = .next v ∧ v.pc = s.pc + 2#9 ∧ v.x[7] = s.x[7] ∧ v.status = u.status ∧ v.mem = u.mem

/-! ## Control transfer -/

/-- 44_control_transfer.md R231: JUMP sets pc to x[ra], whatever it holds. Faults: R111 (D2), R103, R104 (D3, D4). -/
def Obligations.JumpGoesToTheRegister : Prop :=
  (∀ ra, encode (.jump ra) = [0x54#8, ra]) ∧
  (∀ (a : Reg) s, exec (.jump a.byte) s = .next { s with pc := s.x[a].setWidth 9 }) ∧
  (∀ ra s, 8 ≤ ra.toNat → exec (.jump ra) s = .next (faulted s .badRegister 0x54#8 ra.toPc)) ∧
  OperandsPastEnd 0x54#8 2

/-- R233 (D2): JUMP_IF_EQ goes to x[ra] when FL[0] is 1 and to pc + 2 when it is 0; a bad field faults either way.
FETCH_RANGE: R103, R104 (D3, D4). -/
def Obligations.JumpIfEqFollowsTheEqualFlag : Prop :=
  (∀ ra, encode (.jumpIfEq ra) = [0x55#8, ra]) ∧
  (∀ (a : Reg) s, exec (.jumpIfEq a.byte) s =
    .next { s with pc := if s.FL.getLsbD 0 = true then s.x[a].setWidth 9 else s.pc + 2#9 }) ∧
  (∀ ra s, 8 ≤ ra.toNat → exec (.jumpIfEq ra) s = .next (faulted s .badRegister 0x55#8 ra.toPc)) ∧
  OperandsPastEnd 0x55#8 2

/-- R234 (D2): JUMP_IF_NE goes to x[ra] when FL[0] is 0 and to pc + 2 when it is 1; a bad field faults either way.
FETCH_RANGE: R103, R104 (D3, D4). -/
def Obligations.JumpIfNeFollowsTheClearEqualFlag : Prop :=
  (∀ ra, encode (.jumpIfNe ra) = [0x56#8, ra]) ∧
  (∀ (a : Reg) s, exec (.jumpIfNe a.byte) s =
    .next { s with pc := if s.FL.getLsbD 0 = false then s.x[a].setWidth 9 else s.pc + 2#9 }) ∧
  (∀ ra s, 8 ≤ ra.toNat → exec (.jumpIfNe ra) s = .next (faulted s .badRegister 0x56#8 ra.toPc)) ∧
  OperandsPastEnd 0x56#8 2

/-- R232: two states that differ in FL but agree in bit 0 take a conditional jump to the same pc, and a jump not taken
advances by exactly 2. -/
def Obligations.ConditionalJumpsTestOnlyE : Prop :=
  ∀ (s : State) (f : Byte) (a : Reg) (i : Instr), (i = .jumpIfEq a.byte ∨ i = .jumpIfNe a.byte) →
    f.getLsbD 0 = s.FL.getLsbD 0 →
    ∃ t u, exec i s = .next t ∧ exec i { s with FL := f } = .next u ∧ u = { t with FL := f } ∧
      (i = .jumpIfEq a.byte → s.FL.getLsbD 0 = false → t.pc = s.pc + 2#9) ∧
      (i = .jumpIfNe a.byte → s.FL.getLsbD 0 = true → t.pc = s.pc + 2#9)

/-- 40_fetch_decode_execute.md R120 (D3, D6): the next pc by pc_src, for every instruction that does not fault. The
register target is read after the instruction's own writes (R124). -/
def Obligations.NextPcFollowsThePcSource : Prop :=
  ∀ (i : Instr) (s t : State), s.status = .run → exec i s = .next t → t.status ≠ .faulted →
    (i.op.pcSrc = .seq → t.pc = s.pc + BitVec.ofNat 9 i.op.len) ∧
    (i.op.pcSrc = .hold → t.pc = s.pc) ∧
    (i.op.pcSrc = .popped → t.pc = (s.mem.read s.x[7]).setWidth 9) ∧
    (∀ a : Reg, i = .jump a.byte ∨ i = .call a.byte → t.pc = t.x[a].setWidth 9) ∧
    (∀ a : Reg, i = .jumpIfEq a.byte → t.pc = if s.FL.getLsbD 0 = true then s.x[a].setWidth 9 else s.pc + 2#9) ∧
    (∀ a : Reg, i = .jumpIfNe a.byte → t.pc = if s.FL.getLsbD 0 = true then s.pc + 2#9 else s.x[a].setWidth 9)

/-- R129: a state from which no run leaves status RUN has a run of every length, and `JUMP Rk` at the address x[k] holds
is one: every run of it ends where it began. -/
def Obligations.ASelfJumpRunsForEver : Prop :=
  (∀ s : State, s.status = .run → (∀ n t, Runs n s t → t.status = .run) → ∀ n, ∃ t, Runs n s t) ∧
  (∀ (s : State) (a : Reg), Placed s [0x54#8, a.byte] → s.x[a].setWidth 9 = s.pc → ∀ n, Runs n s s)

/-! ## Frames -/

/-- 10_state.md R23: an instruction leaves every register it is not listed as writing as it was; one that faults leaves
them all. -/
def Obligations.OnlyListedRegistersChange : Prop :=
  ∀ (i : Instr) (s t : State) (r : Reg), exec i s = .next t → writesReg i r = false → t.x[r] = s.x[r]

/-- R35 (D29): every instruction but COMPARE leaves FL as it was, and a COMPARE that does not fault leaves 1, 2 or 4. -/
def Obligations.OnlyCompareChangesFlags : Prop :=
  ∀ (i : Instr) (s t : State), exec i s = .next t →
    ((∀ ra rb, i ≠ .compare ra rb) → t.FL = s.FL) ∧
    (∀ ra rb, i = .compare ra rb → s.status = .run → t.status ≠ .faulted → t.FL = 1#8 ∨ t.FL = 2#8 ∨ t.FL = 4#8) ∧
    (t.status = .faulted → s.status = .run → t.FL = s.FL)

/-- 20_memory.md R56: an instruction that is not PUSH or CALL leaves every byte of memory; PUSH and CALL leave every byte
but the one at the address sp_dec gives them, and where sp_dec gives none they leave them all. -/
def Obligations.OnlyTheCellBelowTheStackIsStored : Prop :=
  ∀ (i : Instr) (s t : State), exec i s = .next t →
    (stores i = false → ∀ b, t.mem.read b = s.mem.read b) ∧
    (∀ a, spDec (s.reg .sp) = some a → ∀ b, b ≠ a → t.mem.read b = s.mem.read b) ∧
    (spDec (s.reg .sp) = none → ∀ b, t.mem.read b = s.mem.read b)

/-- 40_fetch_decode_execute.md R116: a step emits at most one event, only from PRINT_NUM, PRINT_CHAR and STORE, and only
when it commits; every other step leaves the output as it was. -/
def Obligations.OnlyPrintsEmitAndOnlyOnCommit : Prop :=
  ∀ (i : Instr) (s t : State), s.status = .run → exec i s = .next t →
    (t.out = s.out ∨ ∃ e, t.out = s.out ++ [e]) ∧
    (emits i = false ∨ t.status = .faulted → t.out = s.out) ∧
    (∀ r, fetch s = .error r → step s = .next (s.enterFault r) ∧ (s.enterFault r).out = s.out)

/-- 10_state.md R31, R32, 00_scope.md R8 (D7): the status changes by HALT and by a fault alone, the fault record by a fault
alone, and the model arguments never. -/
def Obligations.StatusRecordAndParametersFrame : Prop :=
  ∀ (i : Instr) (s t : State), exec i s = .next t →
    t.cfg = s.cfg ∧
    ((t.status = s.status ∧ t.fault = s.fault) ∨ (i = .halt ∧ t.status = .halted ∧ t.fault = s.fault) ∨
      (t.status = .faulted ∧ t.fault.pc = s.pc ∧ t.fault.opcode = i.op.opcode ∧ t.fault.cause ≠ .noFault))

/-- R31, 41_data_and_io.md R141: a step ends in HALTED exactly when the opcode byte at pc could be fetched and is HALT's. -/
def Obligations.OnlyHaltHalts : Prop :=
  ∀ s t : State, step s = .next t → (t.status = .halted ↔ OpcodeFetched s ∧ cell s 0 = 0x01#8)

/-! ## Memory -/

/-- 20_memory.md R50, R61 (D18): a cell reads the value last written to it, and every other cell as before; writing keeps
the canonical form. -/
def Obligations.MemoryReadsTheLastWrite : Prop :=
  ∀ (m : Memory) (a v b : Byte), m.wf = true → (m.write a v).wf = true ∧
    (m.write a v).read b = if b = a then v else m.read b

/-- Log 5 (the model's representation): two canonical memories that read the same everywhere are equal. -/
def Obligations.EqualMemoriesAreEqualData : Prop :=
  ∀ m m' : Memory, m.wf = true → m'.wf = true → (∀ a, m.read a = m'.read a) → m = m'

/-- R64 (D12, D18), 70_reset_and_hazards.md R301: the byte a PUSH stores is the one the next fetch reads where the cell is
one of the bytes at pc, opcode or operand, as long as the memory is the one the PUSH left; an instruction fetched with the
cell at pc has that byte as its opcode. No fence is needed. -/
def Obligations.TheNextFetchSeesAPush : Prop :=
  ∀ (s t u : State) (a : Reg) (k : Nat), s.mem.wf = true → exec (.push a.byte) s = .next t → t.status ≠ .faulted →
    u.mem = t.mem → k < 3 → u.pc.toNat + k = t.x[7].toNat →
    u.window[k]? = some (if a = 7 then t.x[7] else s.x[a]) ∧
      ∀ i, k = 0 → fetch u = .ok i → i.op.opcode = if a = 7 then t.x[7] else s.x[a]

/-! ## Reset, runs, the invariant -/

/-- 10_state.md R44, R38, R31 to R33 (D5, D7, D15, D19): every piece of state at reset, every cell of memory among them, and
the defaults of 00_scope.md R8. -/
def Obligations.ResetIsTheSpecsTable : Prop :=
  (∀ r : Reg, r ≠ 7 → State.reset.x[r] = 0#8) ∧ State.reset.x[7] = 0xF4#8 ∧ State.reset.pc = 0#9 ∧
  State.reset.FL = 0#8 ∧ (∀ a, State.reset.mem.read a = 0#8) ∧ State.reset.status = .run ∧
  State.reset.fault = { cause := .noFault, pc := 0#9, opcode := 0#8, info := 0#9 } ∧ State.reset.out = [] ∧
  State.reset.cfg = { strictFetchWindow := false, stackLimit := 0xF4#8 }

/-- The invariant holds at reset. -/
def Obligations.ResetMeetsTheInvariant : Prop := State.reset.Inv

/-- 10_state.md R29, R32, R35, 20_memory.md R50: from every state that meets the invariant, a step's next state meets it:
memory canonical, FL legal, pc at most 256, the record in agreement with the status. -/
def Obligations.EveryStepKeepsTheInvariant : Prop :=
  ∀ s t : State, s.Inv → step s = .next t → t.Inv

/-- 70_reset_and_hazards.md R296, R297 (D19): a launch state exists exactly for images of at most 256 bytes; its cells
hold the image and then 0, everything else is as at reset, and it meets the invariant. -/
def Obligations.LaunchLoadsTheImage : Prop :=
  ∀ image : List Byte,
    (256 < image.length → State.launch image = none) ∧
    (image.length ≤ 256 → ∃ s, State.launch image = some s ∧ s = { State.reset with mem := s.mem } ∧
      (∀ a : Byte, s.mem.read a = image.getD a.toNat 0#8) ∧ s.Inv)

/-- 41_data_and_io.md R145: along a run, events are only added at the end, at most one a step, in the order of the steps. -/
def Obligations.OutputOnlyGrowsAlongARun : Prop :=
  ∀ n s t, Runs n s t → s.out <+: t.out ∧ t.out.length ≤ s.out.length + n

/-- 70_reset_and_hazards.md R299 (D23): exit status 0 after HALT, some other number after a fault, none before the end. -/
def Obligations.ExitStatusTellsHaltFromFault : Prop :=
  ∀ s : State, (s.status = .halted ↔ s.exitStatus = some 0) ∧ (s.status = .run ↔ s.exitStatus = none) ∧
    (s.status = .faulted → ∃ n, n ≠ 0 ∧ s.exitStatus = some n)

/-! ## The blocks -/

/-- 10_state.md R27, 40_fetch_decode_execute.md R120, R124, R125, 43_stack.md R200 (D1, D12; log 9, the model's own: the
Option enables and the stack_controller's extra input toSp): the blocks' signals with start-of-step reads, forwarding and one commit give what the pseudocode gives, for every operation and operand bytes, at
every pc the machine can hold (R29). -/
def Obligations.DatapathAgreesWithThePseudocode : Prop :=
  ∀ (op : Op) (b1 b2 : Byte) (s : State), s.pc.toNat ≤ 256 →
    datapathExec op b1 b2 s = exec (op.build b1 b2) s

/-- 40_fetch_decode_execute.md R100, R102 to R105, R115, R126, 30_encoding.md R83 (D1, D3, D4; log 9): the blocks joined
by their ports, fetch_unit and decoder in their loop first, take the machine's step, from every state; log 2 says how both
stop outside RUN. -/
def Obligations.TheBlocksTakeTheStep : Prop :=
  ∀ s : State, portStep s = step s

/-- 20_memory.md R56, R61, R68, 40_fetch_decode_execute.md R102 to R104, R106, R111 (D1 to D4, D10 to D13; log 9, the model's
own: how an access is written): the accesses of every step in status RUN at the memory port. None where pc names no cell or
the strict window ends past memory; the opcode alone where it is none of the fifteen or an operand lies past memory; the
instruction's bytes alone where a register field is bad; else the instruction's bytes, in rising order and no others even
under STRICT_FETCH_WINDOW, and then its one stack access, with its address and the byte written. -/
def Obligations.MemoryPortAccessesOfAStep : Prop :=
  (∀ s : State, s.status = .run → 256 ≤ s.pc.toNat → stepAccesses s = []) ∧
  (∀ s : State, s.status = .run → s.pc.toNat < 256 → s.cfg.strictFetchWindow = true → 256 ≤ s.pc.toNat + 2 →
    stepAccesses s = []) ∧
  (∀ s : State, OpcodeFetched s → cell s 0 ∉ opcodes → stepAccesses s = fetchReads s 1) ∧
  (∀ s : State, OpcodeFetched s → cell s 0 ∈ opcodes → 256 < s.pc.toNat + lenOf (cell s 0) →
    stepAccesses s = fetchReads s 1) ∧
  (∀ s : State, OpcodeFetched s → cell s 0 ∈ opcodes → s.pc.toNat + lenOf (cell s 0) ≤ 256 →
    (usesRaOf (cell s 0) = true ∧ 8 ≤ (cell s 1).toNat) ∨ (usesRbOf (cell s 0) = true ∧ 8 ≤ (cell s 2).toNat) →
    stepAccesses s = fetchReads s (lenOf (cell s 0))) ∧
  (∀ s i, WellFormed i → Placed s (encode i) → stepAccesses s = fetchReads s i.op.len ++ stackAccesses i s)

/-- 70_reset_and_hazards.md R290, 40_fetch_decode_execute.md R101, R130 (D5, D7, D15): the reset input leaves the reset value of
every piece of state but the model arguments (log 1), and a step exists again, in whatever status the run had ended. -/
def Obligations.ResetRestartsFromEveryStatus : Prop :=
  ∀ s : State, s.applyReset = { State.reset with cfg := s.cfg } ∧ s.applyReset.statusPorts = ⟨0#2, 0#3, 0#9, 0#8, 0#9⟩ ∧
    ∃ t, step s.applyReset = .next t
end

