-- ==== Sys2Proof/Laws/State.lean ====
section
/-! SUPPORT. What each update of the state does to each field: one lemma per field per update, so that no later proof
unfolds a record update. -/

namespace Sys2Proof.Machine

/-! ### setReg -/

@[simp] theorem State.setReg_x (s : State) (r : Reg) (v : Byte) : (s.setReg r v).x = s.x.set r v := rfl
@[simp] theorem State.setReg_pc (s : State) (r : Reg) (v : Byte) : (s.setReg r v).pc = s.pc := rfl
@[simp] theorem State.setReg_FL (s : State) (r : Reg) (v : Byte) : (s.setReg r v).FL = s.FL := rfl
@[simp] theorem State.setReg_mem (s : State) (r : Reg) (v : Byte) : (s.setReg r v).mem = s.mem := rfl
@[simp] theorem State.setReg_status (s : State) (r : Reg) (v : Byte) : (s.setReg r v).status = s.status := rfl
@[simp] theorem State.setReg_fault (s : State) (r : Reg) (v : Byte) : (s.setReg r v).fault = s.fault := rfl
@[simp] theorem State.setReg_out (s : State) (r : Reg) (v : Byte) : (s.setReg r v).out = s.out := rfl
@[simp] theorem State.setReg_cfg (s : State) (r : Reg) (v : Byte) : (s.setReg r v).cfg = s.cfg := rfl

/-! ### memWrite -/

@[simp] theorem State.memWrite_x (s : State) (a v : Byte) : (s.memWrite a v).x = s.x := rfl
@[simp] theorem State.memWrite_pc (s : State) (a v : Byte) : (s.memWrite a v).pc = s.pc := rfl
@[simp] theorem State.memWrite_FL (s : State) (a v : Byte) : (s.memWrite a v).FL = s.FL := rfl
@[simp] theorem State.memWrite_mem (s : State) (a v : Byte) : (s.memWrite a v).mem = s.mem.write a v := rfl
@[simp] theorem State.memWrite_status (s : State) (a v : Byte) : (s.memWrite a v).status = s.status := rfl
@[simp] theorem State.memWrite_fault (s : State) (a v : Byte) : (s.memWrite a v).fault = s.fault := rfl
@[simp] theorem State.memWrite_out (s : State) (a v : Byte) : (s.memWrite a v).out = s.out := rfl
@[simp] theorem State.memWrite_cfg (s : State) (a v : Byte) : (s.memWrite a v).cfg = s.cfg := rfl

/-! ### setFL -/

@[simp] theorem State.setFL_x (s : State) (v : Byte) : (s.setFL v).x = s.x := rfl
@[simp] theorem State.setFL_pc (s : State) (v : Byte) : (s.setFL v).pc = s.pc := rfl
@[simp] theorem State.setFL_FL (s : State) (v : Byte) : (s.setFL v).FL = v := rfl
@[simp] theorem State.setFL_mem (s : State) (v : Byte) : (s.setFL v).mem = s.mem := rfl
@[simp] theorem State.setFL_status (s : State) (v : Byte) : (s.setFL v).status = s.status := rfl
@[simp] theorem State.setFL_fault (s : State) (v : Byte) : (s.setFL v).fault = s.fault := rfl
@[simp] theorem State.setFL_out (s : State) (v : Byte) : (s.setFL v).out = s.out := rfl
@[simp] theorem State.setFL_cfg (s : State) (v : Byte) : (s.setFL v).cfg = s.cfg := rfl

/-! ### emit -/

@[simp] theorem State.emit_x (s : State) (k : EventKind) (v : Byte) : (s.emit k v).x = s.x := rfl
@[simp] theorem State.emit_pc (s : State) (k : EventKind) (v : Byte) : (s.emit k v).pc = s.pc := rfl
@[simp] theorem State.emit_FL (s : State) (k : EventKind) (v : Byte) : (s.emit k v).FL = s.FL := rfl
@[simp] theorem State.emit_mem (s : State) (k : EventKind) (v : Byte) : (s.emit k v).mem = s.mem := rfl
@[simp] theorem State.emit_status (s : State) (k : EventKind) (v : Byte) : (s.emit k v).status = s.status := rfl
@[simp] theorem State.emit_fault (s : State) (k : EventKind) (v : Byte) : (s.emit k v).fault = s.fault := rfl
@[simp] theorem State.emit_out (s : State) (k : EventKind) (v : Byte) :
    (s.emit k v).out = s.out ++ [{ kind := k, value := v }] := rfl
@[simp] theorem State.emit_cfg (s : State) (k : EventKind) (v : Byte) : (s.emit k v).cfg = s.cfg := rfl

/-! ### advance -/

@[simp] theorem State.advance_x (s : State) (n : Nat) : (s.advance n).x = s.x := rfl
@[simp] theorem State.advance_pc (s : State) (n : Nat) : (s.advance n).pc = s.pc + BitVec.ofNat 9 n := rfl
@[simp] theorem State.advance_FL (s : State) (n : Nat) : (s.advance n).FL = s.FL := rfl
@[simp] theorem State.advance_mem (s : State) (n : Nat) : (s.advance n).mem = s.mem := rfl
@[simp] theorem State.advance_status (s : State) (n : Nat) : (s.advance n).status = s.status := rfl
@[simp] theorem State.advance_fault (s : State) (n : Nat) : (s.advance n).fault = s.fault := rfl
@[simp] theorem State.advance_out (s : State) (n : Nat) : (s.advance n).out = s.out := rfl
@[simp] theorem State.advance_cfg (s : State) (n : Nat) : (s.advance n).cfg = s.cfg := rfl

/-! ### jump -/

@[simp] theorem State.jump_x (s : State) (t : Byte) : (s.jump t).x = s.x := rfl
@[simp] theorem State.jump_pc (s : State) (t : Byte) : (s.jump t).pc = t.toPc := rfl
@[simp] theorem State.jump_FL (s : State) (t : Byte) : (s.jump t).FL = s.FL := rfl
@[simp] theorem State.jump_mem (s : State) (t : Byte) : (s.jump t).mem = s.mem := rfl
@[simp] theorem State.jump_status (s : State) (t : Byte) : (s.jump t).status = s.status := rfl
@[simp] theorem State.jump_fault (s : State) (t : Byte) : (s.jump t).fault = s.fault := rfl
@[simp] theorem State.jump_out (s : State) (t : Byte) : (s.jump t).out = s.out := rfl
@[simp] theorem State.jump_cfg (s : State) (t : Byte) : (s.jump t).cfg = s.cfg := rfl

/-! ### halt -/

@[simp] theorem State.halt_x (s : State) : (s.halt).x = s.x := rfl
@[simp] theorem State.halt_pc (s : State) : (s.halt).pc = s.pc := rfl
@[simp] theorem State.halt_FL (s : State) : (s.halt).FL = s.FL := rfl
@[simp] theorem State.halt_mem (s : State) : (s.halt).mem = s.mem := rfl
@[simp] theorem State.halt_status (s : State) : (s.halt).status = .halted := rfl
@[simp] theorem State.halt_fault (s : State) : (s.halt).fault = s.fault := rfl
@[simp] theorem State.halt_out (s : State) : (s.halt).out = s.out := rfl
@[simp] theorem State.halt_cfg (s : State) : (s.halt).cfg = s.cfg := rfl

/-! ### enterFault -/

@[simp] theorem State.enterFault_x (s : State) (r : Raise) : (s.enterFault r).x = s.x := rfl
@[simp] theorem State.enterFault_pc (s : State) (r : Raise) : (s.enterFault r).pc = s.pc := rfl
@[simp] theorem State.enterFault_FL (s : State) (r : Raise) : (s.enterFault r).FL = s.FL := rfl
@[simp] theorem State.enterFault_mem (s : State) (r : Raise) : (s.enterFault r).mem = s.mem := rfl
@[simp] theorem State.enterFault_status (s : State) (r : Raise) : (s.enterFault r).status = .faulted := rfl
@[simp] theorem State.enterFault_fault (s : State) (r : Raise) :
    (s.enterFault r).fault = { cause := r.cause, pc := s.pc, opcode := r.opcode, info := r.info } := rfl
@[simp] theorem State.enterFault_out (s : State) (r : Raise) : (s.enterFault r).out = s.out := rfl
@[simp] theorem State.enterFault_cfg (s : State) (r : Raise) : (s.enterFault r).cfg = s.cfg := rfl

/-! ### The register read -/

/-- A register written and read back, and every other register unchanged (10_state.md R22). -/
@[simp] theorem State.setReg_reg (s : State) (r q : Reg) (v : Byte) :
    (s.setReg r v).reg q = if q = r then v else s.reg q := by
  simp [State.reg, Vector.getElem_set, Fin.ext_iff, eq_comm]

@[simp] theorem State.memWrite_reg (s : State) (a v : Byte) (q : Reg) : (s.memWrite a v).reg q = s.reg q := rfl
@[simp] theorem State.setFL_reg (s : State) (v : Byte) (q : Reg) : (s.setFL v).reg q = s.reg q := rfl
@[simp] theorem State.emit_reg (s : State) (k : EventKind) (v : Byte) (q : Reg) : (s.emit k v).reg q = s.reg q := rfl
@[simp] theorem State.advance_reg (s : State) (n : Nat) (q : Reg) : (s.advance n).reg q = s.reg q := rfl
@[simp] theorem State.jump_reg (s : State) (t : Byte) (q : Reg) : (s.jump t).reg q = s.reg q := rfl
@[simp] theorem State.halt_reg (s : State) (q : Reg) : (s.halt).reg q = s.reg q := rfl
@[simp] theorem State.enterFault_reg (s : State) (r : Raise) (q : Reg) : (s.enterFault r).reg q = s.reg q := rfl

/-- The window of a state depends on its memory and its pc alone. -/
theorem State.window_congr {s t : State} (hm : s.mem = t.mem) (hp : s.pc = t.pc) : s.window = t.window := by
  simp [State.window, hm, hp]

end Sys2Proof.Machine
end

