-- ==== Sys2Proof/Laws/Ops.lean ====
section
/-! SUPPORT. One lemma for each shared operation, saying everything it can do. -/

namespace Sys2Proof.Machine

/-- The index a register's own operand byte holds. -/
@[simp] theorem byte_toNat (r : Reg) : r.byte.toNat = r.val := by
  have := r.isLt
  simp only [Reg.byte, BitVec.toNat_ofNat]
  omega

/-- A register's operand byte names it (30_encoding.md R75). -/
@[simp] theorem regOf_byte (r : Reg) : regOf? r.byte = some r := by
  have := r.isLt
  simp [regOf?, this]

/-- A field of 8..255 names no register (R75). -/
theorem regOf_none {f : Byte} (h : 8 ≤ f.toNat) : regOf? f = none := by
  simp [regOf?]; omega

/-- Every field names a register by its byte, or is 8 or more. -/
theorem field_cases (f : Byte) : (∃ r : Reg, f = r.byte) ∨ 8 ≤ f.toNat := by
  by_cases h : f.toNat < 8
  · left
    refine ⟨⟨f.toNat, h⟩, BitVec.eq_of_toNat_eq ?_⟩
    simp [byte_toNat]
  · right; omega

/-- `withReg` on a field that names a register. -/
@[simp] theorem withReg_byte (op : Op) (r : Reg) (s : State) (k : Reg → Result) : withReg op r.byte s k = k r := by
  simp [withReg]

/-- `withReg` on a field that names none: BAD_REGISTER with the field (40_fetch_decode_execute.md R111). -/
theorem withReg_bad (op : Op) {f : Byte} (h : 8 ≤ f.toNat) (s : State) (k : Reg → Result) :
    withReg op f s k = takeFault op .badRegister f.toPc s := by
  simp [withReg, regOf_none h]

/-- Everything `withReg` can do. -/
theorem withReg_cases (op : Op) (f : Byte) (s : State) (k : Reg → Result) :
    (∃ r : Reg, f = r.byte ∧ withReg op f s k = k r) ∨
      (8 ≤ f.toNat ∧ withReg op f s k = takeFault op .badRegister f.toPc s) := by
  obtain ⟨r, rfl⟩ | h := field_cases f
  · exact .inl ⟨r, rfl, withReg_byte ..⟩
  · exact .inr ⟨h, withReg_bad op h s k⟩

/-- `withRegs` on two fields that name registers. -/
@[simp] theorem withRegs_byte (op : Op) (a b : Reg) (s : State) (k : Reg → Reg → Result) :
    withRegs op a.byte b.byte s k = k a b := by
  simp [withRegs]

/-- Everything `withRegs` can do: the registers, or BAD_REGISTER on ra first and on rb next (R111). -/
theorem withRegs_cases (op : Op) (fa fb : Byte) (s : State) (k : Reg → Reg → Result) :
    (∃ a b : Reg, fa = a.byte ∧ fb = b.byte ∧ withRegs op fa fb s k = k a b) ∨
      (8 ≤ fa.toNat ∧ withRegs op fa fb s k = takeFault op .badRegister fa.toPc s) ∨
        (∃ a : Reg, fa = a.byte ∧ 8 ≤ fb.toNat ∧ withRegs op fa fb s k = takeFault op .badRegister fb.toPc s) := by
  obtain ⟨a, rfl, ha⟩ | ⟨h, ha⟩ := withReg_cases op fa s fun a => withReg op fb s fun b => k a b
  · obtain ⟨b, rfl, hb⟩ | ⟨h, hb⟩ := withReg_cases op fb s fun b => k a b
    · exact .inl ⟨a, b, rfl, rfl, ha.trans hb⟩
    · exact .inr (.inr ⟨a, rfl, h, ha.trans hb⟩)
  · exact .inr (.inl ⟨h, ha⟩)

/-- A fault taken is a next state: fault entry on the state the step began with (60_exceptions.md R262, R264). -/
theorem takeFault_eq (op : Op) (c : FaultCause) (info : PcWord) (s : State) :
    takeFault op c info s = .next (s.enterFault { cause := c, opcode := op.opcode, info := info }) := rfl

/-- No two causes share a code, and the eight codes are all of three bits (60_exceptions.md R260). -/
theorem faultCode_injective {c d : FaultCause} (h : c.code = d.code) : c = d := by
  cases c <;> cases d <;> first | rfl | exact absurd h (by decide)

/-- No two statuses share a code (40_fetch_decode_execute.md R130). -/
theorem statusCode_injective {a b : RunStatus} (h : a.code = b.code) : a = b := by
  cases a <;> cases b <;> first | rfl | exact absurd h (by decide)

/-- Everything sp_dec can do (43_stack.md R201). -/
theorem spDec_cases (v : Byte) : (v = 0#8 ∧ spDec v = none) ∨ (v ≠ 0#8 ∧ spDec v = some (v - 1#8)) := by
  by_cases h : v = 0#8
  · exact .inl ⟨h, by simp [spDec, h]⟩
  · exact .inr ⟨h, by simp [spDec, h]⟩

/-- Everything sp_inc can do (R202). -/
theorem spInc_cases (limit v : Byte) :
    (limit.toNat ≤ v.toNat ∧ spInc limit v = none) ∨ (v.toNat < limit.toNat ∧ spInc limit v = some (v + 1#8)) := by
  by_cases h : limit.toNat ≤ v.toNat
  · exact .inl ⟨h, by simp [spInc, h]⟩
  · exact .inr ⟨by omega, by simp [spInc, h]⟩

/-- sp_inc never wraps: below the limit there is room for one more (R202). -/
theorem spInc_toNat {limit v w : Byte} (h : spInc limit v = some w) : w.toNat = v.toNat + 1 := by
  have hl := limit.isLt
  obtain ⟨-, h'⟩ | ⟨hv, h'⟩ := spInc_cases limit v
  · rw [h'] at h; cases h
  · rw [h'] at h; cases h
    rw [BitVec.toNat_add]
    simp only [BitVec.toNat_ofNat]
    omega

/-- Everything the alu can do with the three codes the decoder drives, and with the fourth (42_alu.md R170). -/
theorem alu_cases (a b : Byte) :
    alu 0#2 a b = some { res := some (aluAdd a b), fl := none } ∧
      alu 1#2 a b = some { res := some (aluMul a b), fl := none } ∧
        alu 2#2 a b = some { res := none, fl := some (compareFlags a b) } ∧ alu 3#2 a b = none :=
  ⟨rfl, rfl, rfl, rfl⟩

/-- COMPARE's flags are one of its three values (10_state.md R35). -/
theorem compareFlags_cases (a b : Byte) :
    (a.toNat < b.toNat ∧ compareFlags a b = 4#8) ∨ (b.toNat < a.toNat ∧ compareFlags a b = 2#8) ∨
      (a = b ∧ compareFlags a b = 1#8) := by
  rcases Nat.lt_trichotomy a.toNat b.toNat with h | h | h
  · exact .inl ⟨h, by simp [compareFlags, h]⟩
  · exact .inr (.inr ⟨BitVec.eq_of_toNat_eq h, by simp [compareFlags, h]⟩)
  · exact .inr (.inl ⟨h, by simp [compareFlags, h, Nat.lt_asymm h]⟩)

/-- The target of a control transfer names a cell (40_fetch_decode_execute.md R123). -/
theorem toPc_toNat (v : Byte) : v.toPc.toNat = v.toNat := by
  have := v.isLt
  simp only [Byte.toPc, BitVec.toNat_setWidth]
  omega

end Sys2Proof.Machine
end

