-- ==== Sys2Proof/Laws/Decode.lean ====
section
/-! SUPPORT. The decoder: the opcode table read both ways, the operand bytes, the register check. -/

namespace Sys2Proof.Machine

/-- The opcode table read back: each opcode byte names its operation (30_encoding.md R76, R79). -/
@[simp] theorem ofByte_opcode (op : Op) : Op.ofByte? op.opcode = some op := by
  cases op <;> rfl

/-- A byte that names an operation is its opcode byte: all 8 bits were matched (R79). -/
theorem opcode_of_ofByte {b : Byte} {op : Op} (h : Op.ofByte? b = some op) : op.opcode = b := by
  have := List.find?_some h
  simpa using this

/-- A byte that names no operation is none of the fifteen (R80). -/
theorem ofByte_none_iff (b : Byte) : Op.ofByte? b = none ↔ ∀ op : Op, op.opcode ≠ b := by
  constructor
  · intro h op e
    rw [← e, ofByte_opcode] at h
    cases h
  · intro h
    cases e : Op.ofByte? b with
    | none => rfl
    | some op => exact absurd (opcode_of_ofByte e) (h op)

/-- An instruction is one to three bytes long (R70). -/
theorem len_bounds (op : Op) : 1 ≤ op.len ∧ op.len ≤ 3 := by
  cases op <;> decide

/-- A register's own byte passes the register check. -/
@[simp] theorem regFieldOk_byte (r : Reg) : regFieldOk r.byte = true := by
  have := r.isLt
  simp [regFieldOk, this]

/-- The register check, on the number a field holds (R75). -/
theorem regFieldOk_iff (f : Byte) : regFieldOk f = true ↔ f.toNat < 8 := by
  simp [regFieldOk]

/-- The decoder's register check of an operation's fields is the well-formedness of the instruction it builds. -/
theorem badField_none_iff (op : Op) (b1 b2 : Byte) : op.badField? b1 b2 = none ↔ WellFormed (op.build b1 b2) := by
  cases h1 : regFieldOk b1 <;> cases h2 : regFieldOk b2 <;> cases op <;>
    simp [Op.badField?, Op.usesRa, Op.usesRb, Op.build, WellFormed, Instr.regFieldsOk, h1, h2]

/-- What `decode` answers, once: the four reasons for no instruction, and the instruction built from checked fields. -/
theorem decode_cons (b : Byte) (rest : List Byte) :
    (Op.ofByte? b = none ∧ decode (b :: rest) = .error (.unknownOpcode b)) ∨
      ∃ op : Op, op.opcode = b ∧
        ((op.takeOperands rest = none ∧ decode (b :: rest) = .error (.missingOperand b)) ∨
          ∃ b1 b2 rest', op.takeOperands rest = some (b1, b2, rest') ∧
            ((∃ f, op.badField? b1 b2 = some f ∧ decode (b :: rest) = .error (.badRegister b f)) ∨
              (op.badField? b1 b2 = none ∧ decode (b :: rest) = .ok (op.build b1 b2, rest')))) := by
  cases ho : Op.ofByte? b with
  | none => exact .inl ⟨rfl, by simp [decode, ho]⟩
  | some op =>
    refine .inr ⟨op, opcode_of_ofByte ho, ?_⟩
    cases ht : op.takeOperands rest with
    | none => exact .inl ⟨rfl, by simp [decode, ho, ht]⟩
    | some p =>
      obtain ⟨b1, b2, rest'⟩ := p
      refine .inr ⟨b1, b2, rest', rfl, ?_⟩
      cases hb : op.badField? b1 b2 with
      | none => exact .inr ⟨rfl, by simp [decode, ho, ht, hb]⟩
      | some f => exact .inl ⟨f, rfl, by simp [decode, ho, ht, hb]⟩

/-- Operand bytes are missing exactly when fewer follow the opcode than its length calls for (R102). -/
theorem takeOperands_none_iff (op : Op) (rest : List Byte) : op.takeOperands rest = none ↔ rest.length + 1 < op.len := by
  cases op <;> rcases rest with _ | ⟨_, _ | ⟨_, _⟩⟩ <;> simp [Op.takeOperands, Op.len]

end Sys2Proof.Machine
end

