-- ==== Sys2Proof/Laws/Blocks.lean ====
section
/-! SUPPORT. What the blocks of Machine/Blocks.lean drive, said once per block. -/

namespace Sys2Proof.Machine

/-! ## The memory port and the outputs of the stack_controller -/

@[simp] theorem Memory.serve_none (m : Memory) : m.serve none = m := rfl
@[simp] theorem Memory.serve_read (m : Memory) (a : Byte) : m.serve (some { addr := a, wdata := none }) = m := rfl
@[simp] theorem Memory.serve_write (m : Memory) (a v : Byte) :
    m.serve (some { addr := a, wdata := some v }) = m.write a v := rfl

@[simp] theorem StackOut.idle_fault : StackOut.idle.fault = none := rfl
@[simp] theorem StackOut.idle_mem : StackOut.idle.mem = none := rfl
@[simp] theorem StackOut.raise_fault (c : FaultCause) (i : PcWord) : (StackOut.raise c i).fault = some (c, i) := rfl
@[simp] theorem StackOut.raise_mem (c : FaultCause) (i : PcWord) : (StackOut.raise c i).mem = none := rfl
@[simp] theorem StackOut.push_fault (p v : Byte) : (StackOut.push p v).fault = none := rfl
@[simp] theorem StackOut.push_mem (p v : Byte) : (StackOut.push p v).mem = some { addr := p, wdata := some v } := rfl

/-- A pop reads at sp_in, whether or not the increment then faults. -/
@[simp] theorem StackOut.pop_mem (limit p b v : Byte) :
    (StackOut.pop limit p b v).mem = some { addr := p, wdata := none } := by
  rw [StackOut.pop]; split <;> rfl

/-- A pop below the limit. -/
theorem StackOut.pop_ok {limit p b v : Byte} (h : ¬ limit.toNat ≤ b.toNat) :
    StackOut.pop limit p b v =
      { sp := some (b + 1#8), mem := some { addr := p, wdata := none }, popVal := some v, fault := none } := if_neg h

/-- A pop whose increment faults: the read and the byte read stand, SP is not written. -/
theorem StackOut.pop_high {limit p b v : Byte} (h : limit.toNat ≤ b.toNat) :
    StackOut.pop limit p b v =
      { sp := none, mem := some { addr := p, wdata := none }, popVal := some v, fault := some (.stackHigh, b.toPc) } :=
  if_pos h

/-! ## stackStage, one lemma per stack instruction -/

/-- No stack instruction, no output. -/
theorem stackStage_idle {op : Op} (h : op.stackOp = .none) (ra : Reg) (s : State) : stackStage op ra s = .idle := by
  rw [stackStage, h]; rfl

/-- PUSH (R201, R207). -/
theorem stackStage_push (ra : Reg) (s : State) :
    stackStage .push ra s =
      if s.x[7] = 0#8 then .raise .stackLow 0#9 else .push (s.x[7] - 1#8) (if ra = 7 then s.x[7] - 1#8 else s.x[ra]) := rfl

/-- CALL (R201, R213, R214). -/
theorem stackStage_call (ra : Reg) (s : State) :
    stackStage .call ra s =
      if 255 < (s.pc + 2#9).toNat then .raise .returnRange (s.pc + 2#9)
      else if s.x[7] = 0#8 then .raise .stackLow 0#9
      else .push (s.x[7] - 1#8) ((s.pc + 2#9).setWidth 8) := rfl

/-- RET: the read comes before the increment and its check (R202, R217). -/
theorem stackStage_ret (ra : Reg) (s : State) :
    stackStage .ret ra s = .pop s.cfg.stackLimit s.x[7] s.x[7] (s.mem.read s.x[7]) := rfl

/-- POP (R202, R210, R211). -/
theorem stackStage_pop (ra : Reg) (s : State) :
    stackStage .pop ra s =
      if s.cfg.stackLimit.toNat ≤ s.x[7].toNat then .raise .stackHigh s.x[7].toPc
      else .pop s.cfg.stackLimit s.x[7] (if ra = 7 then s.mem.read s.x[7] else s.x[7]) (s.mem.read s.x[7]) := by
  by_cases h : ra = 7
  · subst h; rfl
  · rw [if_neg h, stackStage, show decide (ra = Reg.sp) = false from decide_eq_false h]; rfl

/-! ## fetch_unit and decoder -/

/-- The decoder on an operation's own opcode byte (30_encoding.md R76, R83). -/
theorem decoder_opcode (op : Op) (b1 b2 : Option Byte) :
    decoder op.opcode b1 b2 = some
      { op := op, len := BitVec.ofNat 2 op.len, usesRa := op.usesRa, usesRb := op.usesRb,
        badReg := op.badField? (b1.getD 0#8) (b2.getD 0#8), aluOp := op.aluOp, pcSrc := op.pcSrc } := by
  rw [decoder, ofByte_opcode]; rfl

/-- The decoder on a byte that is no opcode: valid 0 (R80). -/
theorem decoder_invalid {b : Byte} (h : Op.ofByte? b = none) (b1 b2 : Option Byte) : decoder b b1 b2 = none := by
  rw [decoder, h]; rfl

/-- fetch_unit on a pc that names no cell (40_fetch_decode_execute.md R103). -/
theorem fetchUnit_pc_range {strict : Bool} {pc : PcWord} (h : 256 ≤ pc.toNat) (len : Option (BitVec 2)) (m : Byte → Byte) :
    fetchUnit strict pc len m = { memAddrs := [], opOut := none, b1Out := none, b2Out := none, fault := some pc } :=
  if_pos h

/-- fetch_unit where the strict window ends past memory (R104). -/
theorem fetchUnit_strict {pc : PcWord} (h : ¬ 256 ≤ pc.toNat) (h2 : 256 ≤ pc.toNat + 2) (len : Option (BitVec 2))
    (m : Byte → Byte) :
    fetchUnit true pc len m = { memAddrs := [], opOut := none, b1Out := none, b2Out := none, fault := some 256#9 } := by
  rw [fetchUnit, if_neg h, decide_eq_true h2]; rfl

/-- fetch_unit past its two first checks: the opcode, the fault of an operand past memory, or the bytes of an instruction
(R102, R103). -/
theorem fetchUnit_ok {strict : Bool} {pc : PcWord} (h : ¬ 256 ≤ pc.toNat) (hs : ¬ (strict = true ∧ 256 ≤ pc.toNat + 2))
    (len : Option (BitVec 2)) (m : Byte → Byte) :
    fetchUnit strict pc len m =
      let a := fetchAddr pc
      let opcodeOnly : FetchOut :=
        { memAddrs := [a 0], opOut := some (m (a 0)), b1Out := none, b2Out := none, fault := none }
      match len with
      | none => opcodeOnly
      | some n =>
        if 256 < pc.toNat + n.toNat then { opcodeOnly with fault := some 256#9 }
        else if n = 2#2 then { opcodeOnly with memAddrs := [a 0, a 1], b1Out := some (m (a 1)) }
        else if n = 3#2 then
          { opcodeOnly with memAddrs := [a 0, a 1, a 2], b1Out := some (m (a 1)), b2Out := some (m (a 2)) }
        else opcodeOnly := by
  have e : (strict && decide (256 ≤ pc.toNat + 2)) = false := by
    rw [Bool.eq_false_iff]; intro he
    rw [Bool.and_eq_true, decide_eq_true_eq] at he
    exact hs he
  rw [fetchUnit, if_neg h, e]
  cases len <;> rfl

end Sys2Proof.Machine
end

