-- ==== Sys2Proof/Laws/Memory.lean ====
section
/-! SUPPORT. Memory: the canonical form is kept, and the laws of reading after writing (20_memory.md R50, R61). -/

namespace Sys2Proof.Machine

/-- Nothing below the first address of a canonical list is listed: it reads as 0 (R69). -/
theorem Memory.read_of_wfFrom {m : Memory} {lo : Nat} (h : m.wfFrom lo = true) {a : Byte} (ha : a.toNat < lo) :
    m.read a = 0#8 := by
  induction m generalizing lo with
  | nil => rfl
  | cons c t ih =>
    obtain ⟨k, v⟩ := c
    simp only [Memory.wfFrom, Bool.and_eq_true, decide_eq_true_eq] at h
    obtain ⟨⟨⟨hk, -⟩, -⟩, ht⟩ := h
    rw [Memory.read, if_neg (by omega)]
    exact ih ht (by omega)

/-- A canonical list stays canonical for a lower bound. -/
theorem Memory.wfFrom_mono {m : Memory} {lo lo' : Nat} (h : m.wfFrom lo = true) (hl : lo' ≤ lo) :
    m.wfFrom lo' = true := by
  cases m with
  | nil => rfl
  | cons c t =>
    simp only [Memory.wfFrom, Bool.and_eq_true, decide_eq_true_eq] at h ⊢
    exact ⟨⟨⟨by omega, h.1.1.2⟩, h.1.2⟩, h.2⟩

/-- A write at or above the bound keeps the canonical form. -/
theorem Memory.wfFrom_write {m : Memory} {lo : Nat} (h : m.wfFrom lo = true) {a : Byte} (v : Byte)
    (ha : lo ≤ a.toNat) : (m.write a v).wfFrom lo = true := by
  have h256 : a.toNat < 256 := a.isLt
  induction m generalizing lo with
  | nil =>
    by_cases hv : v = 0#8
    · rw [Memory.write, if_pos hv]; rfl
    · rw [Memory.write, if_neg hv]
      simp only [Memory.wfFrom, Bool.and_eq_true, decide_eq_true_eq, and_true]
      exact ⟨⟨ha, h256⟩, hv⟩
  | cons c t ih =>
    obtain ⟨k, w⟩ := c
    have hcons := h
    simp only [Memory.wfFrom, Bool.and_eq_true, decide_eq_true_eq] at h
    obtain ⟨⟨⟨hk, hk2⟩, hw⟩, ht⟩ := h
    rw [Memory.write]
    split
    · split
      · exact hcons
      · simp only [Memory.wfFrom, Bool.and_eq_true, decide_eq_true_eq]
        exact ⟨⟨⟨ha, h256⟩, ‹_›⟩, ⟨⟨⟨by omega, hk2⟩, hw⟩, ht⟩⟩
    · split
      · split
        · exact Memory.wfFrom_mono ht (by omega)
        · simp only [Memory.wfFrom, Bool.and_eq_true, decide_eq_true_eq]
          refine ⟨⟨⟨ha, h256⟩, ‹_›⟩, Memory.wfFrom_mono ht (by omega)⟩
      · simp only [Memory.wfFrom, Bool.and_eq_true, decide_eq_true_eq]
        exact ⟨⟨⟨hk, hk2⟩, hw⟩, ih ht (by omega)⟩

/-- Every write keeps the canonical form. -/
theorem Memory.wf_write {m : Memory} (h : m.wf = true) (a v : Byte) : (m.write a v).wf = true :=
  Memory.wfFrom_write h v (Nat.zero_le _)

/-- Writing a sequence of bytes keeps the canonical form. -/
theorem Memory.wf_writeFrom {m : Memory} (h : m.wf = true) (a : Nat) (bs : List Byte) :
    (m.writeFrom a bs).wf = true := by
  induction bs generalizing m a with
  | nil => exact h
  | cons b t ih =>
    refine ih ?_ (a + 1)
    split
    · exact Memory.wf_write h _ b
    · exact h

/-- The empty list is canonical: the memory of the reset state. -/
theorem Memory.wf_nil : Memory.wf [] = true := rfl

/-- The step of `read_write`: a canonical list read at any address after a write. -/
theorem Memory.read_write_from {m : Memory} {lo : Nat} (h : m.wfFrom lo = true) (a v b : Byte) :
    (m.write a v).read b = if b = a then v else m.read b := by
  have hne : ∀ x y : Byte, x.toNat = y.toNat ↔ x = y := fun x y => (BitVec.toNat_inj (x := x) (y := y))
  induction m generalizing lo with
  | nil =>
    by_cases hv : v = 0#8
    · rw [Memory.write, if_pos hv]; simp [Memory.read, hv]
    · rw [Memory.write, if_neg hv]; simp [Memory.read, hne, eq_comm]
  | cons c t ih =>
    obtain ⟨k, w⟩ := c
    simp only [Memory.wfFrom, Bool.and_eq_true, decide_eq_true_eq] at h
    obtain ⟨⟨⟨-, -⟩, -⟩, ht⟩ := h
    rw [Memory.write]
    by_cases hlt : a.toNat < k
    · rw [if_pos hlt]
      by_cases hv : v = 0#8
      · rw [if_pos hv]
        by_cases hb : b = a
        · subst hb
          rw [if_pos rfl, hv, Memory.read, if_neg (by omega)]
          exact Memory.read_of_wfFrom ht (by omega)
        · rw [if_neg hb]
      · rw [if_neg hv, Memory.read]
        simp [hne, eq_comm]
    · rw [if_neg hlt]
      by_cases hk : k = a.toNat
      · rw [if_pos hk]
        by_cases hv : v = 0#8
        · rw [if_pos hv]
          by_cases hb : b = a
          · subst hb
            rw [if_pos rfl, hv]
            exact Memory.read_of_wfFrom ht (by omega)
          · have : k ≠ b.toNat := fun h => hb ((hne b a).1 (by omega))
            rw [if_neg hb, Memory.read, if_neg this]
        · rw [if_neg hv, Memory.read, Memory.read, hk]
          by_cases hb : b = a
          · simp [hb]
          · rw [if_neg hb, if_neg (fun h => hb ((hne b a).1 h.symm)), if_neg (fun h => hb ((hne b a).1 h.symm))]
      · rw [if_neg hk, Memory.read, Memory.read, ih ht]
        by_cases hb : b = a
        · subst hb; rw [if_neg hk]; simp
        · simp [hb]

/-- Read after write: the value written at the same address, and every other cell as before (R61). -/
theorem Memory.read_write {m : Memory} (h : m.wf = true) (a v b : Byte) :
    (m.write a v).read b = if b = a then v else m.read b :=
  Memory.read_write_from h a v b

/-- A write reads as before at every other address, whatever the list. -/
theorem Memory.read_write_ne {m : Memory} {a b : Byte} (v : Byte) (hb : b ≠ a) :
    (m.write a v).read b = m.read b := by
  have hne : a.toNat ≠ b.toNat := fun h => hb (BitVec.eq_of_toNat_eq h.symm)
  induction m with
  | nil =>
    rw [Memory.write]
    split
    · rfl
    · simp [Memory.read, hne]
  | cons c t ih =>
    obtain ⟨k, w⟩ := c
    rw [Memory.write]
    split
    · split
      · rfl
      · rw [Memory.read, if_neg hne]
    · split
      · have hk : k ≠ b.toNat := by omega
        split
        · rw [Memory.read, if_neg hk]
        · rw [Memory.read, if_neg hne, Memory.read, if_neg hk]
      · rw [Memory.read, Memory.read, ih]

end Sys2Proof.Machine
end

