-- ==== Sys2Proof/Laws/PerInstr.lean ====
section
/-! SUPPORT. The per-instruction families of LAWS.json: statements about an instruction as syntax, one lemma per
constructor. -/

namespace Sys2Proof.Laws.EncodeShape

/-- An instruction's bytes begin with its operation's opcode, and there are as many as the opcode's length says, one to
three (30_encoding.md R70, R71, R73). -/
def Statement (i : Instr) : Prop :=
  (encode i).head? = some i.op.opcode ∧ (encode i).length = i.op.len ∧ 1 ≤ i.op.len ∧ i.op.len ≤ 3

theorem halt : Statement .halt := ⟨rfl, rfl, Machine.len_bounds _⟩

theorem printNum (a : Byte) : Statement (.printNum a) := ⟨rfl, rfl, Machine.len_bounds _⟩

theorem loadImm (a b : Byte) : Statement (.loadImm a b) := ⟨rfl, rfl, Machine.len_bounds _⟩

theorem mul (a b : Byte) : Statement (.mul a b) := ⟨rfl, rfl, Machine.len_bounds _⟩

theorem push (a : Byte) : Statement (.push a) := ⟨rfl, rfl, Machine.len_bounds _⟩

theorem pop (a : Byte) : Statement (.pop a) := ⟨rfl, rfl, Machine.len_bounds _⟩

theorem call (a : Byte) : Statement (.call a) := ⟨rfl, rfl, Machine.len_bounds _⟩

theorem ret : Statement .ret := ⟨rfl, rfl, Machine.len_bounds _⟩

theorem add (a b : Byte) : Statement (.add a b) := ⟨rfl, rfl, Machine.len_bounds _⟩

theorem store (a b : Byte) : Statement (.store a b) := ⟨rfl, rfl, Machine.len_bounds _⟩

theorem jump (a : Byte) : Statement (.jump a) := ⟨rfl, rfl, Machine.len_bounds _⟩

theorem printChar (a : Byte) : Statement (.printChar a) := ⟨rfl, rfl, Machine.len_bounds _⟩

theorem compare (a b : Byte) : Statement (.compare a b) := ⟨rfl, rfl, Machine.len_bounds _⟩

theorem jumpIfEq (a : Byte) : Statement (.jumpIfEq a) := ⟨rfl, rfl, Machine.len_bounds _⟩

theorem jumpIfNe (a : Byte) : Statement (.jumpIfNe a) := ⟨rfl, rfl, Machine.len_bounds _⟩

end Sys2Proof.Laws.EncodeShape

namespace Sys2Proof.Laws.FieldCheck

/-- An instruction is well formed exactly when the decoder's register check passes its operand bytes, and building it
again from its operation and those bytes gives it back (R72, R84). -/
def Statement (i : Instr) : Prop :=
  ∀ b1 b2 : Byte, (encode i).tail = [b1, b2].take (i.op.len - 1) →
    (i.op.badField? b1 b2 = none ↔ WellFormed i) ∧ i.op.build b1 b2 = i

theorem halt : Statement .halt := fun _ _ _ => ⟨Machine.badField_none_iff _ _ _, rfl⟩

theorem printNum (a : Byte) : Statement (.printNum a) := by
  rintro b1 b2 h
  obtain rfl : a = b1 := (List.cons.inj h).1
  exact ⟨Machine.badField_none_iff _ _ b2, rfl⟩

theorem loadImm (a b : Byte) : Statement (.loadImm a b) := by
  rintro b1 b2 h
  obtain ⟨rfl, rfl⟩ : a = b1 ∧ b = b2 := ⟨(List.cons.inj h).1, (List.cons.inj (List.cons.inj h).2).1⟩
  exact ⟨Machine.badField_none_iff _ _ _, rfl⟩

theorem mul (a b : Byte) : Statement (.mul a b) := by
  rintro b1 b2 h
  obtain ⟨rfl, rfl⟩ : a = b1 ∧ b = b2 := ⟨(List.cons.inj h).1, (List.cons.inj (List.cons.inj h).2).1⟩
  exact ⟨Machine.badField_none_iff _ _ _, rfl⟩

theorem push (a : Byte) : Statement (.push a) := by
  rintro b1 b2 h
  obtain rfl : a = b1 := (List.cons.inj h).1
  exact ⟨Machine.badField_none_iff _ _ b2, rfl⟩

theorem pop (a : Byte) : Statement (.pop a) := by
  rintro b1 b2 h
  obtain rfl : a = b1 := (List.cons.inj h).1
  exact ⟨Machine.badField_none_iff _ _ b2, rfl⟩

theorem call (a : Byte) : Statement (.call a) := by
  rintro b1 b2 h
  obtain rfl : a = b1 := (List.cons.inj h).1
  exact ⟨Machine.badField_none_iff _ _ b2, rfl⟩

theorem ret : Statement .ret := fun _ _ _ => ⟨Machine.badField_none_iff _ _ _, rfl⟩

theorem add (a b : Byte) : Statement (.add a b) := by
  rintro b1 b2 h
  obtain ⟨rfl, rfl⟩ : a = b1 ∧ b = b2 := ⟨(List.cons.inj h).1, (List.cons.inj (List.cons.inj h).2).1⟩
  exact ⟨Machine.badField_none_iff _ _ _, rfl⟩

theorem store (a b : Byte) : Statement (.store a b) := by
  rintro b1 b2 h
  obtain ⟨rfl, rfl⟩ : a = b1 ∧ b = b2 := ⟨(List.cons.inj h).1, (List.cons.inj (List.cons.inj h).2).1⟩
  exact ⟨Machine.badField_none_iff _ _ _, rfl⟩

theorem jump (a : Byte) : Statement (.jump a) := by
  rintro b1 b2 h
  obtain rfl : a = b1 := (List.cons.inj h).1
  exact ⟨Machine.badField_none_iff _ _ b2, rfl⟩

theorem printChar (a : Byte) : Statement (.printChar a) := by
  rintro b1 b2 h
  obtain rfl : a = b1 := (List.cons.inj h).1
  exact ⟨Machine.badField_none_iff _ _ b2, rfl⟩

theorem compare (a b : Byte) : Statement (.compare a b) := by
  rintro b1 b2 h
  obtain ⟨rfl, rfl⟩ : a = b1 ∧ b = b2 := ⟨(List.cons.inj h).1, (List.cons.inj (List.cons.inj h).2).1⟩
  exact ⟨Machine.badField_none_iff _ _ _, rfl⟩

theorem jumpIfEq (a : Byte) : Statement (.jumpIfEq a) := by
  rintro b1 b2 h
  obtain rfl : a = b1 := (List.cons.inj h).1
  exact ⟨Machine.badField_none_iff _ _ b2, rfl⟩

theorem jumpIfNe (a : Byte) : Statement (.jumpIfNe a) := by
  rintro b1 b2 h
  obtain rfl : a = b1 := (List.cons.inj h).1
  exact ⟨Machine.badField_none_iff _ _ b2, rfl⟩

end Sys2Proof.Laws.FieldCheck
end

