-- ==== Sys2Proof/Laws/Step.lean ====
section
/-! SUPPORT. What a fetch and a step can do, said once. -/

namespace Sys2Proof.Machine

/-- A read of bytes that all lie in memory is one read of each. -/
theorem Memory.readFrom_eq (m : Memory) {a n : Nat} (h : a + n ≤ 256) :
    m.readFrom a n = (List.range n).map fun k => m.read (BitVec.ofNat 8 (a + k)) := by
  induction n generalizing a with
  | zero => rfl
  | succ n ih =>
    rw [Memory.readFrom, if_pos (by omega), ih (by omega), List.range_succ_eq_map, List.map_cons, List.map_map]
    congr 1
    apply List.map_congr_left
    intro k _
    simp only [Function.comp, Nat.succ_eq_add_one]
    rw [Nat.add_assoc, Nat.add_comm 1 k]

/-- How many bytes a read gives: those up to the last cell. -/
theorem Memory.length_readFrom (m : Memory) (a n : Nat) : (m.readFrom a n).length = min n (256 - a) := by
  induction n generalizing a with
  | zero => simp [Memory.readFrom]
  | succ n ih =>
    rw [Memory.readFrom]
    split
    · rw [List.length_cons, ih]; omega
    · simp only [List.length_nil]; omega

/-- The byte at each place of a read. -/
theorem Memory.getElem_readFrom (m : Memory) (a n k : Nat) (h : k < (m.readFrom a n).length) :
    (m.readFrom a n)[k] = m.read (BitVec.ofNat 8 (a + k)) := by
  induction n generalizing a k with
  | zero => simp [Memory.readFrom] at h
  | succ n ih =>
    by_cases ha : a < 256
    · have e : m.readFrom a (n + 1) = m.read (BitVec.ofNat 8 a) :: m.readFrom (a + 1) n := by
        rw [Memory.readFrom, if_pos ha]
      cases k with
      | zero => simp [e]
      | succ k =>
        simp only [e, List.getElem_cons_succ]
        rw [ih (a + 1) k (by simpa [e] using h), Nat.add_assoc, Nat.add_comm 1 k]
    · have e : m.readFrom a (n + 1) = [] := by rw [Memory.readFrom, if_neg ha]
      simp [e] at h

/-- Everything a fetch can do (40_fetch_decode_execute.md R103, R104, R126). -/
theorem fetch_cases (s : State) :
    (256 ≤ s.pc.toNat ∧ fetch s = .error { cause := .fetchRange, opcode := 0#8, info := s.pc }) ∨
      (s.pc.toNat < 256 ∧ s.cfg.strictFetchWindow = true ∧ 256 ≤ s.pc.toNat + 2 ∧
        fetch s = .error { cause := .fetchRange, opcode := 0#8, info := 256#9 }) ∨
        (s.pc.toNat < 256 ∧ (s.cfg.strictFetchWindow = true → s.pc.toNat + 2 < 256) ∧
          ((∃ e, decode s.window = .error e ∧ fetch s = .error (raiseOf e)) ∨
            ∃ i rest, decode s.window = .ok (i, rest) ∧ fetch s = .ok i)) := by
  by_cases hp : 256 ≤ s.pc.toNat
  · exact .inl ⟨hp, by simp [fetch, hp]⟩
  · by_cases hs : s.cfg.strictFetchWindow = true ∧ 256 ≤ s.pc.toNat + 2
    · refine .inr (.inl ⟨by omega, hs.1, hs.2, ?_⟩)
      rw [fetch, if_neg hp, if_pos (by rw [hs.1, decide_eq_true hs.2]; rfl)]
    · have hf : fetch s = match decode s.window with
          | .ok (i, _) => .ok i
          | .error e => .error (raiseOf e) :=
        (if_neg hp).trans ((if_neg (by simpa using hs)).trans rfl)
      refine .inr (.inr ⟨by omega, fun h => ?_, ?_⟩)
      · by_cases h2 : 256 ≤ s.pc.toNat + 2
        · exact absurd ⟨h, h2⟩ hs
        · omega
      · cases hd : decode s.window with
        | error e => exact .inl ⟨e, rfl, by rw [hf, hd]⟩
        | ok p => exact .inr ⟨p.1, p.2, rfl, by rw [hf, hd]⟩

/-- A step in status RUN is the fault of the fetch, or the instruction fetched (R126). -/
theorem step_run {s : State} (h : s.status = .run) :
    (∃ r, fetch s = .error r ∧ step s = .next (s.enterFault r)) ∨ ∃ i, fetch s = .ok i ∧ step s = exec i s := by
  cases hf : fetch s with
  | error r => exact .inl ⟨r, rfl, by simp [step, h, hf]⟩
  | ok i => exact .inr ⟨i, rfl, by simp [step, h, hf]⟩

/-- Where a next state comes from. -/
theorem step_next {s t : State} (h : step s = .next t) :
    s.status = .run ∧
      ((∃ r, fetch s = .error r ∧ t = s.enterFault r) ∨ ∃ i, fetch s = .ok i ∧ exec i s = .next t) := by
  have hr : s.status = .run := by
    cases hs : s.status with
    | run => rfl
    | halted => simp [step, hs] at h
    | faulted => simp [step, hs] at h
  refine ⟨hr, ?_⟩
  obtain ⟨r, hf, e⟩ | ⟨i, hf, e⟩ := step_run hr
  · rw [e] at h; cases h; exact .inl ⟨r, hf, rfl⟩
  · exact .inr ⟨i, hf, e ▸ h⟩

/-- Everything the execute_engine does for an ALU operation whose code the alu knows, once its registers are named. -/
theorem executeAlu_byte (op : Op) {code : BitVec 2} (a b : Reg) (s : State) {o : AluOut}
    (h : alu code (s.reg a) (s.reg b) = some o) :
    executeAlu op code a.byte b.byte s =
      .next ((match o.fl with
        | some v => (match o.res with
          | some r => s.setReg a r
          | none => s).setFL v
        | none => match o.res with
          | some r => s.setReg a r
          | none => s).advance op.len) := by
  cases o with
  | mk res fl => cases res <;> cases fl <;> simp only [executeAlu, withRegs_byte, h]

end Sys2Proof.Machine
end

