-- ==== Sys2Proof/Laws/Run.lean ====
section
/-! SUPPORT. Runs, one step at a time (70_reset_and_hazards.md R298). -/

namespace Sys2Proof.Machine

/-- A run of no steps ends where it begins. -/
theorem runs_zero {s t : State} : Runs 0 s t ↔ s = t := by
  constructor
  · intro h; cases h; rfl
  · rintro rfl; rfl

/-- A run of any machine that takes its first step. -/
theorem coreRun_succ (M : Host.Core) (k : Nat) (s : M.State) :
    M.run (k + 1) s = match M.step s with
      | .next s' => M.run k s'
      | .fault r => .fault r
      | .refused r => .refused r := by
  cases h : M.step s <;> simp [Host.Core.run, h]

/-- A longer run takes one step and then runs on. -/
theorem runs_succ {n : Nat} {s t : State} : Runs (n + 1) s t ↔ ∃ u, step s = .next u ∧ Runs n u t := by
  have e := coreRun_succ Sys2Proof.core n s
  cases h : step s with
  | next u =>
    rw [show Sys2Proof.core.step s = .next u from h] at e
    exact ⟨fun hr => ⟨u, rfl, e.symm.trans hr⟩, fun ⟨v, hv, hr⟩ => by cases hv; exact e.trans hr⟩
  | fault r =>
    rw [show Sys2Proof.core.step s = .fault r from h] at e
    exact ⟨fun hr => (by cases e.symm.trans hr), fun ⟨v, hv, _⟩ => by cases hv⟩
  | refused r =>
    rw [show Sys2Proof.core.step s = .refused r from h] at e
    exact ⟨fun hr => (by cases e.symm.trans hr), fun ⟨v, hv, _⟩ => by cases hv⟩

/-- What holds of a state and is kept by every step holds at the end of every run. -/
theorem runs_induction {P : State → Prop} (hstep : ∀ s t, P s → step s = .next t → P t) {n : Nat} {s t : State}
    (hs : P s) (h : Runs n s t) : P t := by
  induction n generalizing s with
  | zero => exact runs_zero.1 h ▸ hs
  | succ n ih =>
    obtain ⟨u, hu, hr⟩ := runs_succ.1 h
    exact ih (hstep s u hs hu) hr

end Sys2Proof.Machine
end

