-- ==== Sys2Proof/Tests/Slice0.lean ====
section
/-! SUPPORT. The model's own tests. Expected results come from spec/: the vectors named D-, A-, K-, J- and F- are those of
95_test_vectors.md section 2. The last part shows, for each statement with hypotheses, states and operands that meet
them. -/

namespace Sys2Proof.Tests

open Sys2Proof Sys2Proof.Machine Sys2Proof.Claims

/-- The reset state with bytes placed at a pc. -/
def at_ (pc : PcWord) (bytes : List Byte) : State :=
  { State.reset with pc := pc, mem := Memory.writeFrom [] pc.toNat bytes }

/-- The same under STRICT_FETCH_WINDOW. -/
def strict (s : State) : State := { s with cfg := { s.cfg with strictFetchWindow := true } }

/-- A view of the next state, if there is one. -/
def after {α : Type} (o : Result) (f : State → α) : Option α :=
  match o with
  | .next t => some (f t)
  | .fault _ => none
  | .refused _ => none

/-- The fault record as the vectors write it: cause, f_pc, f_opcode, f_info. -/
def record (t : State) : FaultCause × PcWord × Byte × PcWord :=
  (t.fault.cause, t.fault.pc, t.fault.opcode, t.fault.info)

/-! ## WellFormed: one ill-formed term for each check -/

theorem test_wellFormed_refuses_printNum : ¬ WellFormed (.printNum 8#8) := by decide
theorem test_wellFormed_refuses_loadImm : ¬ WellFormed (.loadImm 8#8 0#8) := by decide
theorem test_wellFormed_refuses_mul_ra : ¬ WellFormed (.mul 8#8 0#8) := by decide
theorem test_wellFormed_refuses_mul_rb : ¬ WellFormed (.mul 0#8 8#8) := by decide
theorem test_wellFormed_refuses_push : ¬ WellFormed (.push 255#8) := by decide
theorem test_wellFormed_refuses_pop : ¬ WellFormed (.pop 8#8) := by decide
theorem test_wellFormed_refuses_call : ¬ WellFormed (.call 8#8) := by decide
theorem test_wellFormed_refuses_add_ra : ¬ WellFormed (.add 8#8 0#8) := by decide
theorem test_wellFormed_refuses_add_rb : ¬ WellFormed (.add 0#8 8#8) := by decide
theorem test_wellFormed_refuses_store : ¬ WellFormed (.store 8#8 0#8) := by decide
theorem test_wellFormed_refuses_jump : ¬ WellFormed (.jump 8#8) := by decide
theorem test_wellFormed_refuses_printChar : ¬ WellFormed (.printChar 8#8) := by decide
theorem test_wellFormed_refuses_compare_ra : ¬ WellFormed (.compare 8#8 0#8) := by decide
theorem test_wellFormed_refuses_compare_rb : ¬ WellFormed (.compare 0#8 8#8) := by decide
theorem test_wellFormed_refuses_jumpIfEq : ¬ WellFormed (.jumpIfEq 8#8) := by decide
theorem test_wellFormed_refuses_jumpIfNe : ¬ WellFormed (.jumpIfNe 8#8) := by decide
theorem test_wellFormed_takes_any_immediate_and_x :
    WellFormed (.loadImm 7#8 255#8) ∧ WellFormed (.store 7#8 255#8) := by decide

/-! ## Decoding: the word of every constructor, from the bits of R76 -/

theorem test_decode_halt : decode [0b00000001#8] = .ok (.halt, []) := by decide
theorem test_decode_printNum : decode [0b01000111#8, 0b00000010#8] = .ok (.printNum 2#8, []) := by decide
theorem test_decode_loadImm :
    decode [0b10000010#8, 0b00000001#8, 0b00001001#8] = .ok (.loadImm 1#8 9#8, []) := by decide
theorem test_decode_mul : decode [0b10100010#8, 0b00000000#8, 0b00000001#8] = .ok (.mul 0#8 1#8, []) := by decide
theorem test_decode_push : decode [0b01000101#8, 0b00000111#8] = .ok (.push 7#8, []) := by decide
theorem test_decode_pop : decode [0b01000110#8, 0b00000010#8] = .ok (.pop 2#8, []) := by decide
theorem test_decode_call : decode [0b01010000#8, 0b00000001#8] = .ok (.call 1#8, []) := by decide
theorem test_decode_ret : decode [0b00010001#8, 0b11111111#8] = .ok (.ret, [0xFF#8]) := by decide
theorem test_decode_add : decode [0b10100000#8, 0b00000111#8, 0b00000000#8] = .ok (.add 7#8 0#8, []) := by decide
theorem test_decode_store :
    decode [0b10000100#8, 0b00000001#8, 0b11111111#8] = .ok (.store 1#8 255#8, []) := by decide
theorem test_decode_jump : decode [0b01010100#8, 0b00000011#8] = .ok (.jump 3#8, []) := by decide
theorem test_decode_printChar : decode [0b01001000#8, 0b00000010#8] = .ok (.printChar 2#8, []) := by decide
theorem test_decode_compare :
    decode [0b10100111#8, 0b00000000#8, 0b00000010#8] = .ok (.compare 0#8 2#8, []) := by decide
theorem test_decode_jumpIfEq : decode [0b01010101#8, 0b00000010#8] = .ok (.jumpIfEq 2#8, []) := by decide
theorem test_decode_jumpIfNe : decode [0b01010110#8, 0b00000011#8] = .ok (.jumpIfNe 3#8, []) := by decide

/-- The bytes F-14 names: valid-looking bit patterns and LS-8 opcodes this hardware lacks. -/
theorem test_decode_rejects_unlisted :
    ∀ b ∈ [0x00#8, 0x02#8, 0x40#8, 0x44#8, 0x80#8, 0xA1#8, 0xA3#8, 0x13#8, 0x52#8, 0x83#8, 0xFF#8],
      decode [b, 0#8, 0#8] = .error (.unknownOpcode b) := by decide

theorem test_tableWord_bytes :
    decodeTableWord 24 0x090182 = some (.loadImm 1#8 9#8) ∧ decodeTableWord 8 0x090182 = some (.loadImm 0#8 0#8) ∧
      decodeTableWord 16 0x0850 = none := by decide

theorem test_withFetchWord_runs_first :
    after (step (State.reset.withFetchWord 24 0x090182)) (fun t => (t.x[1], t.pc)) = some (9#8, 3#9) := by decide

/-! ## One step, from the vectors of 95_test_vectors.md -/

theorem test_D2_halt_at_255 : after (step (at_ 0xFF#9 [0x01#8])) (fun t => (t.status, t.pc)) = some (.halted, 0xFF#9) := by
  decide
theorem test_F11_halt_strict :
    after (step (strict (at_ 0xFD#9 [0x01#8]))) (fun t => (t.status, t.pc)) = some (.halted, 0xFD#9) := by decide
theorem test_D4_loadImm_sp :
    after (step (at_ 0#9 [0x82#8, 0x07#8, 0x10#8])) (fun t => (t.x[7], t.pc)) = some (0x10#8, 3#9) := by decide
theorem test_D12_loadImm_to_256 :
    after (step (at_ 0xFD#9 [0x82#8, 0x00#8, 0x07#8])) (fun t => (t.x[0], t.pc)) = some (7#8, 0x100#9) := by decide
theorem test_D6_printNum : after (step (at_ 0#9 [0x47#8, 0x00#8])) (fun t => (t.out, t.pc)) =
    some ([{ kind := .num, value := 0#8 }], 2#9) := by decide
theorem test_F3_printNum_past_end :
    after (step (at_ 0xFF#9 [0x47#8])) record = some (.fetchRange, 0xFF#9, 0x47#8, 0x100#9) := by decide
theorem test_D7_printChar : after (step ((at_ 0#9 [0x48#8, 0x02#8]).setReg 2 0x41#8)) (fun t => (t.out, t.pc)) =
    some ([{ kind := .char, value := 0x41#8 }], 2#9) := by decide
theorem test_D8_printChar_bad : after (step (at_ 0#9 [0x48#8, 0x08#8])) record = some (.badRegister, 0#9, 0x48#8, 8#9) := by
  decide
theorem test_D9_store_prints : after (step ((at_ 0#9 [0x84#8, 0x01#8, 0xFF#8]).setReg 1 0x2A#8))
    (fun t => (t.out, t.pc, t.mem == (at_ 0#9 [0x84#8, 0x01#8, 0xFF#8]).mem)) =
    some ([{ kind := .num, value := 42#8 }], 3#9, true) := by decide
theorem test_D11_store_past_end :
    after (step (at_ 0xFE#9 [0x84#8, 0x01#8])) record = some (.fetchRange, 0xFE#9, 0x84#8, 0x100#9) := by decide
theorem test_A3_add_doubles :
    after (step ((at_ 0#9 [0xA0#8, 0x02#8, 0x02#8]).setReg 2 0x80#8)) (fun t => (t.x[2], t.FL)) = some (0#8, 0#8) := by
  decide
theorem test_A4_add_wraps_sp :
    after (step ((at_ 0#9 [0xA0#8, 0x07#8, 0x00#8]).setReg 0 0x20#8)) (fun t => t.x[7]) = some 0x14#8 := by decide
theorem test_A6_mul : after (step (((at_ 0#9 [0xA2#8, 0x00#8, 0x01#8]).setReg 0 0xFF#8).setReg 1 0xFF#8))
    (fun t => (t.x[0], t.x[1])) = some (1#8, 0xFF#8) := by decide
theorem test_A10_mul_bad_rb :
    after (step (at_ 0#9 [0xA2#8, 0x00#8, 0x08#8])) record = some (.badRegister, 0#9, 0xA2#8, 8#9) := by decide
theorem test_A14_compare_overwrites :
    after (step (((at_ 0#9 [0xA7#8, 0x00#8, 0x01#8]).setReg 0 7#8).setReg 1 7#8 |>.setFL 4#8)) (fun t => t.FL) =
      some 1#8 := by decide
theorem test_A16_compare_unsigned :
    after (step ((at_ 0#9 [0xA7#8, 0x00#8, 0x01#8]).setReg 0 0xFF#8)) (fun t => (t.FL, t.x[0])) = some (2#8, 0xFF#8) := by
  decide
theorem test_K3_push_over_itself : after (step (((at_ 0#9 [0x45#8, 0x00#8]).setReg .sp 1#8).setReg 0 9#8))
    (fun t => (t.x[7], t.mem.read 0#8, t.pc)) = some (0#8, 9#8, 2#9) := by decide
theorem test_K4_push_sp :
    after (step (at_ 0#9 [0x45#8, 0x07#8])) (fun t => (t.x[7], t.mem.read 0xF3#8)) = some (0xF3#8, 0xF3#8) := by decide
theorem test_K10_pop_sp :
    after (step (((at_ 0#9 [0x46#8, 0x07#8]).setReg .sp 0xF3#8).memWrite 0xF3#8 0x20#8)) (fun t => (t.x[7], t.pc)) =
      some (0x21#8, 2#9) := by decide
theorem test_K12_pop_sp_too_high :
    after (step (((at_ 0#9 [0x46#8, 0x07#8]).setReg .sp 0xF3#8).memWrite 0xF3#8 0xF4#8)) (fun t => (record t, t.x[7])) =
      some ((.stackHigh, 0#9, 0x46#8, 0xF4#9), 0xF3#8) := by decide
theorem test_K14_call_sp : after (step (at_ 0#9 [0x50#8, 0x07#8])) (fun t => (t.x[7], t.mem.read 0xF3#8, t.pc)) =
    some (0xF3#8, 2#8, 0xF3#9) := by decide
theorem test_K15_call_return_range :
    after (step (at_ 0xFE#9 [0x50#8, 0x00#8])) record = some (.returnRange, 0xFE#9, 0x50#8, 0x100#9) := by decide
theorem test_K20_ret_empty : after (step (at_ 0#9 [0x11#8])) record = some (.stackHigh, 0#9, 0x11#8, 0xF4#9) := by decide
theorem test_K21_ret_unchecked :
    after (step ((at_ 0#9 [0x11#8]).setReg .sp 0#8)) (fun t => (t.pc, t.x[7])) = some (0x11#9, 1#8) := by decide
theorem test_J1_jump : after (step ((at_ 0#9 [0x54#8, 0x00#8]).setReg 0 0x10#8)) (fun t => t.pc) = some 0x10#9 := by decide
theorem test_J2_jump_bad : after (step (at_ 0#9 [0x54#8, 0x08#8])) record = some (.badRegister, 0#9, 0x54#8, 8#9) := by
  decide
theorem test_J4_jumpIfEq_taken :
    after (step (((at_ 0x10#9 [0x55#8, 0x00#8]).setReg 0 0x30#8).setFL 1#8)) (fun t => t.pc) = some 0x30#9 := by decide
theorem test_J6_jumpIfEq_not_taken :
    after (step (((at_ 0x10#9 [0x55#8, 0x00#8]).setReg 0 0x30#8).setFL 4#8)) (fun t => t.pc) = some 0x12#9 := by decide
theorem test_J8_jumpIfNe_not_taken :
    after (step (((at_ 0x10#9 [0x56#8, 0x00#8]).setReg 0 0x30#8).setFL 1#8)) (fun t => t.pc) = some 0x12#9 := by decide
theorem test_J12_jumpIfNe_bad_though_not_taken :
    after (step ((at_ 0#9 [0x56#8, 0x0C#8]).setFL 1#8)) record = some (.badRegister, 0#9, 0x56#8, 0x0C#9) := by decide

/-! Fetch and the order of faults (60_exceptions.md R265). -/

theorem test_F2_unknown_before_operands :
    after (step (at_ 0xFF#9 [0xFF#8])) record = some (.unknownOpcode, 0xFF#9, 0xFF#8, 0#9) := by decide
theorem test_F8_pc_past_memory : after (step (at_ 0x102#9 [])) record = some (.fetchRange, 0x102#9, 0#8, 0x102#9) := by decide
theorem test_F12_strict_before_unknown :
    after (step (strict (at_ 0xFF#9 [0xFF#8]))) record = some (.fetchRange, 0xFF#9, 0#8, 0x100#9) := by decide
theorem test_K18_register_before_stack :
    after (step ((at_ 0#9 [0x50#8, 0x08#8]).setReg .sp 0#8)) record = some (.badRegister, 0#9, 0x50#8, 8#9) := by decide
theorem test_A11_ra_before_rb :
    after (step (at_ 0#9 [0xA0#8, 0x09#8, 0x0A#8])) record = some (.badRegister, 0#9, 0xA0#8, 9#9) := by decide
theorem test_K8_stack_limit_is_a_parameter :
    after (step { (at_ 0#9 [0x46#8, 0x00#8]).setReg .sp 0xF5#8 with
      cfg := { strictFetchWindow := false, stackLimit := 0xFF#8 } }) (fun t => (t.x[0], t.x[7])) =
      some (0#8, 0xF6#8) := by decide

/-! Codes and the host's side. -/

theorem test_codes_of_the_ports :
    [FaultCause.noFault, .unknownOpcode, .fetchRange, .badRegister, .stackLow, .stackHigh, .returnRange,
      .aluUnsupported].map FaultCause.code = [0#3, 1#3, 2#3, 3#3, 4#3, 5#3, 6#3, 7#3] ∧
    [RunStatus.run, .halted, .faulted].map RunStatus.code = [0#2, 1#2, 2#2] ∧
    [EventKind.num, .char].map EventKind.code = [0#1, 1#1] := by decide

theorem test_num_event_is_decimal : Event.line { kind := .num, value := 72#8 } = "72" := by decide

/-! ## Witnesses: the hypotheses of each statement, met together -/

theorem test_witness_LengthIsFixedByOpcode :
    (encode (.add 1#8 2#8)).head? = (encode (.add 7#8 0#8)).head? := by decide

theorem test_witness_OpcodeMapIsComplete :
    0x00#8 ∉ opcodes ∧ 0xFF#8 ∉ opcodes ∧
      ∀ b ∈ opcodes, WellFormed (ruleOf b 7#8 7#8) ∧ WellFormed (ruleOf b 0#8 0#8) := by decide

theorem test_witness_DecodeOfEncode : WellFormed (.compare 7#8 7#8) ∧ WellFormed (.loadImm 0#8 255#8) := by decide

theorem test_witness_EncodeOfDecode : ∃ i rest, decode [0xA0#8, 7#8, 7#8, 0xFF#8] = .ok (i, rest) := ⟨_, _, rfl⟩

/-- Placed, for an instruction that ends in the last cell. -/
theorem placed_add_at_253 : Placed (at_ 253#9 [0xA0#8, 7#8, 0#8]) (encode (.add 7#8 0#8)) := by
  refine ⟨⟨rfl, by decide, by decide⟩, by decide, ?_⟩
  intro k hk
  have : k = 0 ∨ k = 1 ∨ k = 2 := by simp [encode] at hk; omega
  rcases this with rfl | rfl | rfl <;> rfl

/-- Placed, under STRICT_FETCH_WINDOW, at the last pc it allows. -/
theorem placed_halt_strict : Placed (strict (at_ 253#9 [0x01#8])) (encode .halt) := by
  refine ⟨⟨rfl, by decide, by decide⟩, by decide, ?_⟩
  intro k hk
  have : k = 0 := by simp [encode] at hk; omega
  subst this; rfl

theorem test_witness_StepRunsTheDecodedInstruction :
    (WellFormed (.add 7#8 0#8) ∧ Placed (at_ 253#9 [0xA0#8, 7#8, 0#8]) (encode (.add 7#8 0#8))) ∧
      WellFormed .halt ∧ Placed (strict (at_ 253#9 [0x01#8])) (encode .halt) :=
  ⟨⟨by decide, placed_add_at_253⟩, by decide, placed_halt_strict⟩

theorem test_witness_StepIsThePseudocode : State.reset.status = .run := rfl

theorem test_witness_StepExistsExactlyInRun :
    State.reset.status = .run ∧ State.reset.halt.status = .halted ∧
      (faulted State.reset .stackLow 0x45#8 0#9).status = .faulted := ⟨rfl, rfl, rfl⟩

theorem test_witness_UnknownOpcodeFaults :
    OpcodeFetched (at_ 255#9 [0xFF#8]) ∧ cell (at_ 255#9 [0xFF#8]) 0 ∉ opcodes ∧
      OpcodeFetched (at_ 0#9 []) ∧ cell (at_ 0#9 []) 0 ∉ opcodes :=
  ⟨⟨rfl, by decide, by decide⟩, by decide, ⟨rfl, by decide, by decide⟩, by decide⟩

theorem test_witness_FetchRangeFaults :
    ((at_ 256#9 []).status = .run ∧ 256 ≤ (at_ 256#9 []).pc.toNat ∧ 256 ≤ (at_ 511#9 []).pc.toNat) ∧
    ((strict (at_ 254#9 [])).status = .run ∧ (strict (at_ 254#9 [])).pc.toNat < 256 ∧
      (strict (at_ 254#9 [])).cfg.strictFetchWindow = true ∧ 256 ≤ (strict (at_ 254#9 [])).pc.toNat + 2) ∧
    (OpcodeFetched (at_ 255#9 [0x47#8]) ∧ cell (at_ 255#9 [0x47#8]) 0 ∈ opcodes ∧
      256 < (at_ 255#9 [0x47#8]).pc.toNat + lenOf (cell (at_ 255#9 [0x47#8]) 0)) :=
  ⟨by decide, by decide, ⟨rfl, by decide, by decide⟩, by decide, by decide⟩

theorem test_witness_BadRegisterFaults :
    (OpcodeFetched (at_ 254#9 [0x56#8, 8#8]) ∧ cell (at_ 254#9 [0x56#8, 8#8]) 0 ∈ opcodes ∧
      (at_ 254#9 [0x56#8, 8#8]).pc.toNat + lenOf (cell (at_ 254#9 [0x56#8, 8#8]) 0) ≤ 256 ∧
      usesRaOf (cell (at_ 254#9 [0x56#8, 8#8]) 0) = true ∧ 8 ≤ (cell (at_ 254#9 [0x56#8, 8#8]) 1).toNat) ∧
    (OpcodeFetched (at_ 253#9 [0xA7#8, 7#8, 255#8]) ∧ cell (at_ 253#9 [0xA7#8, 7#8, 255#8]) 0 ∈ opcodes ∧
      (at_ 253#9 [0xA7#8, 7#8, 255#8]).pc.toNat + lenOf (cell (at_ 253#9 [0xA7#8, 7#8, 255#8]) 0) ≤ 256 ∧
      usesRbOf (cell (at_ 253#9 [0xA7#8, 7#8, 255#8]) 0) = true ∧
      (cell (at_ 253#9 [0xA7#8, 7#8, 255#8]) 1).toNat < 8 ∧ 8 ≤ (cell (at_ 253#9 [0xA7#8, 7#8, 255#8]) 2).toNat) :=
  ⟨⟨⟨rfl, by decide, by decide⟩, by decide, by decide, by decide, by decide⟩,
    ⟨⟨rfl, by decide, by decide⟩, by decide, by decide, by decide, by decide, by decide⟩⟩

/-- One step that ends in each cause a step can record: the hypotheses of FaultsArePrecise and of every clause of
EveryFaultHasItsCondition. -/
theorem test_witness_EveryFaultHasItsCondition :
    ([at_ 0#9 [], at_ 256#9 [], strict (at_ 254#9 [0x01#8]), at_ 254#9 [0x82#8], at_ 0#9 [0x47#8, 8#8],
      at_ 0#9 [0xA0#8, 7#8, 8#8], (at_ 0#9 [0x45#8, 0#8]).setReg .sp 0#8, (at_ 0#9 [0x50#8, 0#8]).setReg .sp 0#8,
      at_ 0#9 [0x46#8, 0#8], at_ 0#9 [0x11#8], ((at_ 0#9 [0x46#8, 7#8]).setReg .sp 0xF3#8).memWrite 0xF3#8 0xF4#8,
      at_ 254#9 [0x50#8, 0#8]].map fun s => after (step s) fun t => (t.status, t.fault.cause)) =
    [some (.faulted, .unknownOpcode), some (.faulted, .fetchRange), some (.faulted, .fetchRange),
     some (.faulted, .fetchRange), some (.faulted, .badRegister), some (.faulted, .badRegister),
     some (.faulted, .stackLow), some (.faulted, .stackLow), some (.faulted, .stackHigh), some (.faulted, .stackHigh),
     some (.faulted, .stackHigh), some (.faulted, .returnRange)] := by decide

theorem test_witness_FaultsArePrecise : ∃ t, step (at_ 0#9 []) = .next t ∧ t.status = .faulted := ⟨_, rfl, rfl⟩

/-- The FETCH_RANGE line of every opcode of two or three bytes, at the first pc it is raised at. -/
theorem test_witness_OperandsPastEnd :
    ∀ b ∈ opcodes, 2 ≤ lenOf b →
      (at_ (BitVec.ofNat 9 (257 - lenOf b)) [b]).status = .run ∧
      (at_ (BitVec.ofNat 9 (257 - lenOf b)) [b]).pc.toNat < 256 ∧
      cell (at_ (BitVec.ofNat 9 (257 - lenOf b)) [b]) 0 = b ∧
      256 < (at_ (BitVec.ofNat 9 (257 - lenOf b)) [b]).pc.toNat + lenOf b := by decide

theorem test_witness_StrictPastEnd :
    (strict (at_ 254#9 [0x01#8])).status = .run ∧ (strict (at_ 254#9 [0x01#8])).pc.toNat < 256 ∧
      (strict (at_ 254#9 [0x01#8])).cfg.strictFetchWindow = true ∧ 254 ≤ (strict (at_ 254#9 [0x01#8])).pc.toNat := by
  decide

/-- The BAD_REGISTER line of every instruction: the least and the greatest field that names no register. -/
theorem test_witness_bad_field : 8 ≤ (8#8).toNat ∧ 8 ≤ (255#8).toNat := by decide

theorem test_witness_HaltStopsTheMachine : ∃ t, exec .halt State.reset = .next t := ⟨_, rfl⟩

theorem test_witness_PushStoresBelowTheStack :
    (State.reset.setReg .sp 1#8).x[7] ≠ 0#8 ∧ State.reset.x[7] ≠ 0#8 ∧ (State.reset.setReg .sp 0#8).x[7] = 0#8 := by decide

theorem test_witness_PopReadsTheTopOfTheStack :
    ((6 : Reg) ≠ 7 ∧ (State.reset.setReg .sp 0xF3#8).x[7].toNat < State.reset.cfg.stackLimit.toNat) ∧
    (((State.reset.setReg .sp 0xF3#8).memWrite 0xF3#8 0xF3#8).x[7].toNat < State.reset.cfg.stackLimit.toNat ∧
      (((State.reset.setReg .sp 0xF3#8).memWrite 0xF3#8 0xF3#8).mem.read 0xF3#8).toNat <
        State.reset.cfg.stackLimit.toNat) ∧
    State.reset.cfg.stackLimit.toNat ≤ State.reset.x[7].toNat ∧
    (((State.reset.setReg .sp 0xF3#8).memWrite 0xF3#8 0xF4#8).x[7].toNat < State.reset.cfg.stackLimit.toNat ∧
      State.reset.cfg.stackLimit.toNat ≤
        (((State.reset.setReg .sp 0xF3#8).memWrite 0xF3#8 0xF4#8).mem.read 0xF3#8).toNat) := by decide

theorem test_witness_CallPushesTheReturnAddressAndJumps :
    ((at_ 253#9 []).pc.toNat + 2 ≤ 255 ∧ (at_ 253#9 []).x[7] ≠ 0#8) ∧ (at_ 254#9 []).pc.toNat = 254 ∧
      (at_ 0#9 []).pc.toNat + 2 ≤ 255 ∧ ((at_ 0#9 []).setReg .sp 0#8).x[7] = 0#8 := by decide

theorem test_witness_RetPopsIntoThePc :
    (State.reset.setReg .sp 0xF3#8).x[7].toNat < State.reset.cfg.stackLimit.toNat ∧
      State.reset.cfg.stackLimit.toNat ≤ State.reset.x[7].toNat := by decide

theorem test_witness_CallsReturnAddressIsPcPlusTwo :
    State.reset.mem.wf = true ∧ ∃ t, exec (.call (Reg.byte 7)) State.reset = .next t ∧ t.status ≠ .faulted :=
  ⟨rfl, _, rfl, by decide⟩

theorem test_witness_PushThenPopRestoresTheRegisters :
    State.reset.mem.wf = true ∧ (1 ≤ State.reset.x[7].toNat ∧ State.reset.x[7].toNat ≤ State.reset.cfg.stackLimit.toNat) ∧
      1 ≤ (State.reset.setReg .sp 1#8).x[7].toNat ∧
        (State.reset.setReg .sp 1#8).x[7].toNat ≤ State.reset.cfg.stackLimit.toNat := by decide

theorem test_witness_CallThenRetReturnsAfterTheCall :
    ∃ t u : State, State.reset.mem.wf = true ∧ State.reset.x[7].toNat ≤ u.cfg.stackLimit.toNat ∧
      exec (.call (Reg.byte 1)) State.reset = .next t ∧ t.status ≠ .faulted ∧ u.x[7] = t.x[7] ∧
        u.mem.read t.x[7] = t.mem.read t.x[7] := by
  obtain ⟨t, ht, hl, hs⟩ : ∃ t, exec (.call (Reg.byte 1)) State.reset = .next t ∧
      State.reset.x[7].toNat ≤ t.cfg.stackLimit.toNat ∧ t.status ≠ .faulted := ⟨_, rfl, by decide, by decide⟩
  exact ⟨t, t, rfl, hl, ht, hs, rfl, rfl⟩

theorem test_witness_ConditionalJumpsTestOnlyE :
    ((Instr.jumpIfEq (Reg.byte 0) = .jumpIfEq (Reg.byte 0)) ∧ (0xFE#8).getLsbD 0 = State.reset.FL.getLsbD 0) ∧
      (Instr.jumpIfNe (Reg.byte 7) = .jumpIfNe (Reg.byte 7)) ∧
        (0xFF#8).getLsbD 0 = (State.reset.setFL 1#8).FL.getLsbD 0 := by decide

/-- A next state that is not faulted, by an instruction of each pc_src. -/
theorem test_witness_NextPcFollowsThePcSource :
    State.reset.status = .run ∧
    ∀ i ∈ [Instr.printNum 0#8, .halt, .ret, .jump (Reg.byte 0), .call (Reg.byte 7), .jumpIfEq (Reg.byte 1),
        .jumpIfNe (Reg.byte 1)],
      after (exec i (State.reset.setReg .sp 0x80#8)) (fun t => t.status == .faulted) = some false := by decide

/-- The program of J-13: `54 00` at 0 with x[0] = 0. -/
theorem placed_self_jump : Placed (at_ 0#9 [0x54#8, 0#8]) [0x54#8, Reg.byte 0] := by
  refine ⟨⟨rfl, by decide, by decide⟩, by decide, ?_⟩
  intro k hk
  have : k = 0 ∨ k = 1 := by simp at hk; omega
  rcases this with rfl | rfl <;> rfl

theorem test_witness_ASelfJumpRunsForEver :
    ((at_ 0#9 [0x54#8, 0#8]).status = .run ∧ ∀ n t, Runs n (at_ 0#9 [0x54#8, 0#8]) t → t.status = .run) ∧
      Placed (at_ 0#9 [0x54#8, 0#8]) [0x54#8, Reg.byte 0] ∧
        (at_ 0#9 [0x54#8, 0#8]).x[(0 : Reg)].setWidth 9 = (at_ 0#9 [0x54#8, 0#8]).pc := by
  refine ⟨⟨rfl, fun n t h => ?_⟩, placed_self_jump, by decide⟩
  have : t = at_ 0#9 [0x54#8, 0#8] := by
    refine runs_induction (P := fun s => s = at_ 0#9 [0x54#8, 0#8]) ?_ rfl h
    rintro s u rfl hu
    have e : step (at_ 0#9 [0x54#8, 0#8]) = .next (at_ 0#9 [0x54#8, 0#8]) := rfl
    rw [e] at hu
    cases hu
    rfl
  rw [this]
  rfl

/-- The frames' hypothesis, a next state, and the side conditions of their clauses. -/
theorem test_witness_frames :
    (∃ t, exec (.pop (Reg.byte 0)) (State.reset.setReg .sp 0xF3#8) = .next t) ∧ writesReg (.pop (Reg.byte 0)) 1 = false ∧
    (∃ t, exec (.compare (Reg.byte 0) (Reg.byte 7)) State.reset = .next t ∧ t.status ≠ .faulted) ∧
    (∃ t, exec (.compare 8#8 0#8) State.reset = .next t ∧ t.status = .faulted) ∧
    (∃ t, exec (.push (Reg.byte 0)) State.reset = .next t) ∧ spDec (State.reset.reg .sp) = some 0xF3#8 ∧
    (∃ t, exec (.call (Reg.byte 0)) (State.reset.setReg .sp 0#8) = .next t) ∧
    spDec ((State.reset.setReg .sp 0#8).reg .sp) = none ∧ stores (.store 0#8 0#8) = false ∧ emits (.pop 0#8) = false ∧
    (∃ r, fetch State.reset = .error r) :=
  ⟨⟨_, rfl⟩, by decide, ⟨_, rfl, by decide⟩, ⟨_, rfl, rfl⟩, ⟨_, rfl⟩, by decide, ⟨_, rfl⟩, by decide, rfl, rfl, ⟨_, rfl⟩⟩

theorem test_witness_OnlyHaltHalts :
    (∃ t, step (at_ 255#9 [0x01#8]) = .next t ∧ t.status = .halted) ∧
      ∃ t, step (at_ 0#9 []) = .next t ∧ t.status ≠ .halted := ⟨⟨_, rfl, rfl⟩, _, rfl, by decide⟩

theorem test_witness_MemoryReadsTheLastWrite : Memory.wf [(0, 1#8), (255, 0xFF#8)] = true := by decide

theorem test_witness_EqualMemoriesAreEqualData :
    Memory.wf [(3, 1#8)] = true ∧ Memory.wf (Memory.write [] 3#8 1#8) = true ∧
      ∀ a, Memory.read [(3, 1#8)] a = Memory.read (Memory.write [] 3#8 1#8) a := ⟨by decide, by decide, fun _ => rfl⟩

/-- The pushed byte as the next opcode (a PUSH of 0x11, fetched at the cell it was stored in), and as the last byte of the
window. -/
theorem test_witness_TheNextFetchSeesAPush :
    (∃ t u : State, State.reset.mem.wf = true ∧ exec (.push (Reg.byte 0)) (State.reset.setReg 0 0x11#8) = .next t ∧
      t.status ≠ .faulted ∧ u.mem = t.mem ∧ u.pc.toNat + 0 = t.x[7].toNat ∧ fetch u = .ok .ret) ∧
    ∃ t u : State, exec (.push (Reg.byte 7)) State.reset = .next t ∧ t.status ≠ .faulted ∧ u.mem = t.mem ∧
      u.pc.toNat + 2 = t.x[7].toNat :=
  ⟨⟨_, { State.reset with mem := [(0xF3, 0x11#8)], pc := 0xF3#9 }, rfl, rfl, by decide, by decide, by decide, rfl⟩,
    _, { State.reset with mem := [(0xF3, 0xF3#8)], pc := 0xF1#9 }, rfl, by decide, by decide, by decide⟩

/-- The invariant holds at a state with code and a stack, whose step has a next state. -/
theorem test_witness_EveryStepKeepsTheInvariant :
    ((at_ 254#9 [0x47#8, 0#8]).setFL 4#8).Inv ∧ ∃ t, step ((at_ 254#9 [0x47#8, 0#8]).setFL 4#8) = .next t :=
  ⟨⟨by decide, by decide, by decide, by decide, by decide⟩, _, rfl⟩

theorem test_witness_LaunchLoadsTheImage :
    256 < (List.replicate 257 1#8).length ∧ (List.replicate 256 1#8).length ≤ 256 := by
  rw [List.length_replicate, List.length_replicate]
  decide

theorem test_witness_OutputOnlyGrowsAlongARun : ∃ t, Runs 1 (at_ 0#9 [0x47#8, 0#8]) t ∧ t.out.length = 1 :=
  ⟨_, runs_succ.2 ⟨_, rfl, runs_zero.2 rfl⟩, rfl⟩

theorem test_witness_ExitStatusTellsHaltFromFault :
    State.reset.status = .run ∧ State.reset.halt.status = .halted ∧
      (faulted State.reset .unknownOpcode 0#8 0#9).status = .faulted := ⟨rfl, rfl, rfl⟩

theorem test_witness_DatapathAgreesWithThePseudocode : (at_ 256#9 []).pc.toNat ≤ 256 := by decide

/-- Placed, for a RET in the last cell with SP = STACK_LIMIT. -/
theorem placed_ret_empty_stack : Placed (at_ 255#9 [0x11#8]) (encode .ret) := by
  refine ⟨⟨rfl, by decide, by decide⟩, by decide, ?_⟩
  intro k hk
  have : k = 0 := by simp [encode] at hk; omega
  subst this; rfl

/-- Placed, for a POP R7 that ends in the last cell. -/
theorem placed_pop : Placed ((at_ 254#9 [0x46#8, 7#8]).setReg .sp 0xF3#8) (encode (.pop 7#8)) := by
  refine ⟨⟨rfl, by decide, by decide⟩, by decide, ?_⟩
  intro k hk
  have : k = 0 ∨ k = 1 := by simp [encode] at hk; omega
  rcases this with rfl | rfl <;> rfl

/-- Each clause of MemoryPortAccessesOfAStep at a boundary. -/
theorem test_witness_MemoryPortAccessesOfAStep :
    ((at_ 256#9 []).status = .run ∧ 256 ≤ (at_ 256#9 []).pc.toNat) ∧
    ((strict (at_ 254#9 [])).status = .run ∧ (strict (at_ 254#9 [])).pc.toNat < 256 ∧
      (strict (at_ 254#9 [])).cfg.strictFetchWindow = true ∧ 256 ≤ (strict (at_ 254#9 [])).pc.toNat + 2) ∧
    (OpcodeFetched (at_ 255#9 [0xFF#8]) ∧ cell (at_ 255#9 [0xFF#8]) 0 ∉ opcodes) ∧
    (OpcodeFetched (at_ 255#9 [0x47#8]) ∧ cell (at_ 255#9 [0x47#8]) 0 ∈ opcodes ∧
      256 < (at_ 255#9 [0x47#8]).pc.toNat + lenOf (cell (at_ 255#9 [0x47#8]) 0)) ∧
    (OpcodeFetched (at_ 253#9 [0xA7#8, 7#8, 8#8]) ∧ cell (at_ 253#9 [0xA7#8, 7#8, 8#8]) 0 ∈ opcodes ∧
      (at_ 253#9 [0xA7#8, 7#8, 8#8]).pc.toNat + lenOf (cell (at_ 253#9 [0xA7#8, 7#8, 8#8]) 0) ≤ 256 ∧
      usesRbOf (cell (at_ 253#9 [0xA7#8, 7#8, 8#8]) 0) = true ∧ 8 ≤ (cell (at_ 253#9 [0xA7#8, 7#8, 8#8]) 2).toNat) ∧
    ((WellFormed .ret ∧ Placed (at_ 255#9 [0x11#8]) (encode .ret)) ∧
      (WellFormed (.pop 7#8) ∧ Placed ((at_ 254#9 [0x46#8, 7#8]).setReg .sp 0xF3#8) (encode (.pop 7#8))) ∧
      WellFormed .halt ∧ Placed (strict (at_ 253#9 [0x01#8])) (encode .halt)) :=
  ⟨⟨rfl, by decide⟩, ⟨rfl, by decide, rfl, by decide⟩, ⟨⟨rfl, by decide, by decide⟩, by decide⟩,
    ⟨⟨rfl, by decide, by decide⟩, by decide, by decide⟩,
    ⟨⟨rfl, by decide, by decide⟩, by decide, by decide, by decide, by decide⟩,
    ⟨by decide, placed_ret_empty_stack⟩, ⟨by decide, placed_pop⟩, by decide, placed_halt_strict⟩

/-! ## The blocks' ports (20_memory.md R56, R68; 40_fetch_decode_execute.md R103 to R105; 43_stack.md R200) -/

theorem test_R68_pop_reads_its_bytes_then_the_stack :
    stepAccesses ((at_ 0#9 [0x46#8, 0x00#8]).setReg .sp 0xF3#8) =
      [{ addr := 0#8, wdata := none }, { addr := 1#8, wdata := none }, { addr := 0xF3#8, wdata := none }] := by decide

theorem test_R68_call_writes_the_return_address :
    stepAccesses (at_ 0#9 [0x50#8, 0x01#8]) =
      [{ addr := 0#8, wdata := none }, { addr := 1#8, wdata := none }, { addr := 0xF3#8, wdata := some 2#8 }] := by decide

theorem test_R103_fetch_unit_faults_at_the_operand :
    fetchUnit false 254#9 (some 3#2) (fun _ => 0x82#8) =
      { memAddrs := [254#8], opOut := some 0x82#8, b1Out := none, b2Out := none, fault := some 256#9 } := by decide

theorem test_R200_ret_drives_sp_as_a_read :
    stackController .ret 0xF4#8 0xF3#8 0#8 2#9 (fun a => a + 1#8) false =
      { sp := some 0xF4#8, mem := some { addr := 0xF3#8, wdata := none }, popVal := some 0xF4#8, fault := none } := by decide

theorem test_R217_ret_reads_before_it_faults :
    stepAccesses (at_ 0#9 [0x11#8]) = [{ addr := 0#8, wdata := none }, { addr := 0xF4#8, wdata := none }] := by decide

theorem test_R210_pop_faults_before_it_reads :
    stepAccesses (at_ 0#9 [0x46#8, 0x00#8]) = [{ addr := 0#8, wdata := none }, { addr := 1#8, wdata := none }] := by decide

theorem test_R106_unknown_opcode_fetches_no_operand :
    stepAccesses (at_ 0#9 [0x00#8]) = [{ addr := 0#8, wdata := none }] := by decide

end Sys2Proof.Tests
end

section
/-! PROOFS. The fetch at the end of memory, and POP (O28). -/

namespace Sys2Proof.Machine

open Sys2Proof.Claims

/-! ### The fetch at the end of memory -/

/-- In status RUN the fault of the fetch is taken. -/
theorem step_of_fetch_error {s : State} (hr : s.status = .run) {r : Raise} (hf : fetch s = .error r) :
    step s = .next (s.enterFault r) := by
  simp [step, hr, hf]

/-- Past the two range checks, a fetch fails as the decoder does. -/
theorem fetch_of_decode_error {s : State} (hp : s.pc.toNat < 256)
    (hs : s.cfg.strictFetchWindow = true → s.pc.toNat + 2 < 256) {e : DecodeError} (hd : decode s.window = .error e) :
    fetch s = .error (raiseOf e) := by
  obtain ⟨h, -⟩ | ⟨-, hstrict, h, -⟩ | ⟨-, -, ⟨e', he, hf⟩ | ⟨i, rest, hi, -⟩⟩ := fetch_cases s
  · omega
  · have := hs hstrict; omega
  · rw [hd] at he; cases he; exact hf
  · rw [hd] at hi; cases hi

/-- The window at a cell begins with that cell's byte, the opcode. -/
theorem window_eq_cons {s : State} (hp : s.pc.toNat < 256) :
    s.window = cell s 0 :: s.mem.readFrom (s.pc.toNat + 1) 2 := by
  simp [State.window, maxLen, Memory.readFrom, cell, hp]

/-- Too few bytes after a valid opcode (40_fetch_decode_execute.md R102, R103). -/
theorem decode_missingOperand {op : Op} {rest : List Byte} (h : rest.length + 1 < op.len) :
    decode (op.opcode :: rest) = .error (.missingOperand op.opcode) := by
  simp [decode, (takeOperands_none_iff op rest).2 h]

/-- Under the strict window, pc 254 and 255 fault before the opcode is read (R104). -/
theorem step_strictPastEnd : StrictPastEnd := by
  intro s hr hp hstrict h254
  obtain ⟨h, -⟩ | ⟨-, -, -, hf⟩ | ⟨-, hs, -⟩ := fetch_cases s
  · omega
  · exact step_of_fetch_error hr hf
  · have := hs hstrict; omega

/-- An instruction of two or three bytes whose last byte would lie at 256 or above (R103, R104). -/
theorem step_operandsPastEnd (op : Op) (hlen : 2 ≤ op.len) : OperandsPastEnd op.opcode op.len := by
  intro s hr hp hop hend
  have hlen3 : op.len ≤ 3 := (len_bounds op).2
  by_cases hstrict : s.cfg.strictFetchWindow = true
  · rw [if_pos hstrict]
    exact step_strictPastEnd s hr hp hstrict (by omega)
  · rw [if_neg hstrict]
    have hshort : (s.mem.readFrom (s.pc.toNat + 1) 2).length + 1 < op.len := by
      rw [Memory.length_readFrom]; omega
    have hd : decode s.window = .error (.missingOperand op.opcode) := by
      rw [window_eq_cons hp, hop, decode_missingOperand hshort]
    exact step_of_fetch_error hr (fetch_of_decode_error hp (absurd · hstrict) hd)

/-! ### POP -/

/-- Below the limit sp_inc adds one (43_stack.md R202). -/
theorem spInc_of_lt {limit v : Byte} (h : v.toNat < limit.toNat) : spInc limit v = some (v + 1#8) :=
  if_neg (by omega)

/-- At the limit or above it sp_inc raises STACK_HIGH (R202). -/
theorem spInc_of_le {limit v : Byte} (h : limit.toNat ≤ v.toNat) : spInc limit v = none :=
  if_pos h

/-- The state after POP's read of mem[SP] into x[ra], before SP is incremented (43_stack.md R210). -/
def State.popInto (s : State) (a : Reg) : State := s.setReg a (s.mem.read (s.reg .sp))

/-- Into another register than R7, POP leaves the SP it read at (R210). -/
theorem State.popInto_sp_of_ne (s : State) {a : Reg} (ha : a ≠ .sp) : (s.popInto a).reg .sp = s.reg .sp := by
  rw [State.popInto, State.setReg_reg, if_neg ha.symm]

/-- Into R7, the popped byte is the SP that POP then increments (R211). -/
theorem State.popInto_sp_same (s : State) : (s.popInto .sp).reg .sp = s.mem.read (s.reg .sp) := by
  rw [State.popInto, State.setReg_reg, if_pos rfl]

/-- POP at or above STACK_LIMIT faults before it reads (R210). -/
theorem execPop_high {a : Reg} {s : State} (h : s.cfg.stackLimit.toNat ≤ (s.reg .sp).toNat) :
    execPop a.byte s = takeFault .pop .stackHigh (s.reg .sp).toPc s := by
  simp [execPop, spInc_of_le h]

/-- POP below STACK_LIMIT: the increment of the SP it leaves behind completes it. -/
theorem execPop_ok {a : Reg} {s : State} (h : (s.reg .sp).toNat < s.cfg.stackLimit.toNat)
    (hpop : ((s.popInto a).reg .sp).toNat < s.cfg.stackLimit.toNat) :
    execPop a.byte s = .next (((s.popInto a).setReg .sp ((s.popInto a).reg .sp + 1#8)).advance 2) := by
  rw [State.popInto] at hpop ⊢
  simp only [execPop, withReg_byte, spInc_of_lt h, spInc_of_lt hpop]

/-- POP below STACK_LIMIT whose popped byte, in R7, is not below it: STACK_HIGH on the state the step began with. -/
theorem execPop_popped_high {a : Reg} {s : State} (h : (s.reg .sp).toNat < s.cfg.stackLimit.toNat)
    (hpop : s.cfg.stackLimit.toNat ≤ ((s.popInto a).reg .sp).toNat) :
    execPop a.byte s = takeFault .pop .stackHigh ((s.popInto a).reg .sp).toPc s := by
  rw [State.popInto] at hpop ⊢
  simp only [execPop, withReg_byte, spInc_of_lt h, spInc_of_le hpop]

/-- Settles O28, by the three ways a POP ends, each read at ra = R7 and at the other registers. -/
theorem popReadsTheTopOfTheStack : Obligations.PopReadsTheTopOfTheStack := by
  refine ⟨fun _ => rfl, fun a s ha hsp => ?_, fun s hsp hb => ?_, fun a s hsp => execPop_high hsp,
    fun s hsp hb => ?_, fun ra s hra => withReg_bad .pop hra s _, step_operandsPastEnd .pop (by decide)⟩
  · have hinc := s.popInto_sp_of_ne ha
    refine (execPop_ok hsp (by rwa [hinc])).trans ?_
    rw [hinc]; rfl
  · have hinc := s.popInto_sp_same
    refine (execPop_ok hsp (by rwa [hinc])).trans ?_
    rw [hinc]
    simp [State.popInto, State.setReg, State.advance, State.reg]
  · have hinc := s.popInto_sp_same
    refine (execPop_popped_high hsp (by rwa [hinc])).trans ?_
    rw [hinc]; rfl

end Sys2Proof.Machine
end

section
/-! PROOFS. The length of an instruction (O3) and the opcode map (O5). -/

namespace Sys2Proof.Machine

open Sys2Proof.Claims

/-! ### The opcode byte names the operation -/

/-- No two operations share an opcode byte (30_encoding.md R76, R79). -/
theorem opcode_injective {op op' : Op} (h : op.opcode = op'.opcode) : op = op' :=
  Option.some.inj (by rw [← ofByte_opcode op, h, ofByte_opcode])

/-- The fifteen bytes of R76 are the opcodes of the operations. -/
theorem mem_opcodes_iff {b : Byte} : b ∈ opcodes ↔ ∃ op : Op, op.opcode = b := by
  have hmap : opcodes = Op.all.map Op.opcode := rfl
  have hall : ∀ op : Op, op ∈ Op.all := by intro op; cases op <;> decide
  simp [hmap, hall]

/-- The shape of an encoding, for every instruction at once. -/
theorem encode_shape (i : Instr) : Laws.EncodeShape.Statement i :=
  match i with
  | .halt => Laws.EncodeShape.halt
  | .printNum a => Laws.EncodeShape.printNum a
  | .loadImm a b => Laws.EncodeShape.loadImm a b
  | .mul a b => Laws.EncodeShape.mul a b
  | .push a => Laws.EncodeShape.push a
  | .pop a => Laws.EncodeShape.pop a
  | .call a => Laws.EncodeShape.call a
  | .ret => Laws.EncodeShape.ret
  | .add a b => Laws.EncodeShape.add a b
  | .store a b => Laws.EncodeShape.store a b
  | .jump a => Laws.EncodeShape.jump a
  | .printChar a => Laws.EncodeShape.printChar a
  | .compare a b => Laws.EncodeShape.compare a b
  | .jumpIfEq a => Laws.EncodeShape.jumpIfEq a
  | .jumpIfNe a => Laws.EncodeShape.jumpIfNe a

/-- Settles O3: equal first bytes are equal opcodes, hence equal operations, and an encoding is as long as its
operation says. -/
theorem lengthIsFixedByOpcode : Obligations.LengthIsFixedByOpcode := by
  intro i j
  obtain ⟨hheadi, hleni, hlow, hhigh⟩ := encode_shape i
  obtain ⟨hheadj, hlenj, -, -⟩ := encode_shape j
  refine ⟨by omega, fun hhead => ?_⟩
  rw [hheadi, hheadj] at hhead
  have hop : i.op = j.op := opcode_injective (Option.some.inj hhead)
  rw [hleni, hlenj, hop]

/-! ### The rows of the opcode map -/

/-- The rule of an operation's opcode byte is the instruction that the decoder builds (R76, R112). -/
@[simp] theorem ruleOf_opcode (op : Op) (b1 b2 : Byte) : ruleOf op.opcode b1 b2 = op.build b1 b2 := by
  cases op <;> rfl

/-- Bits 7..6 of an operation's opcode byte give its length (R77). -/
@[simp] theorem lenOf_opcode (op : Op) : lenOf op.opcode = op.len := by
  cases op <;> rfl

/-- With two bytes after the opcode no operand is missing. A byte beyond the operation's length is taken as 0, which the
instruction built does not show (R102, R126). -/
theorem takeOperands_cons_cons (op : Op) (b1 b2 : Byte) (rest : List Byte) :
    ∃ c1 c2, op.takeOperands (b1 :: b2 :: rest) = some (c1, c2, (op.opcode :: b1 :: b2 :: rest).drop op.len) ∧
      op.build c1 c2 = op.build b1 b2 := by
  cases op <;> exact ⟨_, _, rfl, rfl⟩

/-- A byte names an operation exactly when it is one of the fifteen (R79, R80). -/
theorem ofByte_isSome_iff (b : Byte) : (Op.ofByte? b).isSome = true ↔ b ∈ opcodes := by
  rw [mem_opcodes_iff, ← Option.ne_none_iff_isSome, Ne, ofByte_none_iff]
  push Not
  rfl

/-- A byte outside the fifteen is rejected whatever follows it (R80, R106). -/
theorem decode_unknownOpcode {b : Byte} (hb : b ∉ opcodes) (rest : List Byte) :
    decode (b :: rest) = .error (.unknownOpcode b) := by
  have hnone : Op.ofByte? b = none := by
    rwa [← ofByte_isSome_iff, Option.not_isSome_iff_eq_none] at hb
  simp [decode, hnone]

/-- An opcode byte with bytes enough and good register fields gives its operation's instruction. -/
theorem decode_opcode_of_wellFormed {op : Op} {b1 b2 : Byte} (hwf : WellFormed (op.build b1 b2)) (rest : List Byte) :
    decode (op.opcode :: b1 :: b2 :: rest) = .ok (op.build b1 b2, (op.opcode :: b1 :: b2 :: rest).drop op.len) := by
  obtain ⟨c1, c2, htake, hbuild⟩ := takeOperands_cons_cons op b1 b2 rest
  have hfields : op.badField? c1 c2 = none := (badField_none_iff op c1 c2).2 (hbuild ▸ hwf)
  simp only [decode, ofByte_opcode, htake, hfields, hbuild]

/-- The numbers below 256 whose byte names an operation are the fifteen opcodes, in another order. -/
theorem opcodeNumbers_perm :
    ((List.range 256).filter fun n => (Op.ofByte? (BitVec.ofNat 8 n)).isSome).Perm (opcodes.map BitVec.toNat) := by
  refine (List.perm_ext_iff_of_nodup (List.nodup_range.filter _) (by decide)).2 fun n => ?_
  rw [List.mem_filter, List.mem_range, ofByte_isSome_iff, List.mem_map]
  constructor
  · rintro ⟨hn, hb⟩
    exact ⟨_, hb, (BitVec.toNat_ofNat n 8).trans (Nat.mod_eq_of_lt hn)⟩
  · rintro ⟨b, hb, rfl⟩
    exact ⟨b.isLt, by simpa using hb⟩

/-- Of the 256 byte values all but the fifteen opcodes, 241, name no operation (R80). -/
theorem length_unknownOpcodes :
    ((List.range 256).filter fun n => (Op.ofByte? (BitVec.ofNat 8 n)).isNone).length = 241 := by
  have hknown := opcodeNumbers_perm.length_eq
  have hsplit := List.length_eq_length_filter_add (l := List.range 256)
    fun n => (Op.ofByte? (BitVec.ofNat 8 n)).isSome
  simp only [Option.not_isSome, List.length_range] at hsplit
  rw [List.length_map, show opcodes.length = 15 from rfl] at hknown
  omega

/-- Settles O5, from the opcode table read both ways, the count, and the decoder on each row. -/
theorem opcodeMapIsComplete : Obligations.OpcodeMapIsComplete := by
  refine ⟨fun b rest hb => decode_unknownOpcode hb rest, length_unknownOpcodes, fun b b1 b2 rest hb hwf => ?_⟩
  obtain ⟨op, rfl⟩ := mem_opcodes_iff.1 hb
  rw [ruleOf_opcode] at hwf ⊢
  rw [lenOf_opcode]
  exact decode_opcode_of_wellFormed hwf rest

end Sys2Proof.Machine
end

section
/-! PROOFS. The step on an opcode byte outside the fifteen (O12), and on a placed instruction. -/

namespace Sys2Proof.Machine

open Sys2Proof.Claims

/-- Settles O12: the opcode heads the window, so the decoder rejects it whatever follows, and the fetch fails as the
decoder does. -/
theorem unknownOpcodeFaults : Obligations.UnknownOpcodeFaults := by
  rintro s ⟨hrun, hpc, hstrict⟩ hop
  have hdecode : decode s.window = .error (.unknownOpcode (cell s 0)) := by
    rw [window_eq_cons hpc, decode_unknownOpcode hop]
  exact step_of_fetch_error hrun (fetch_of_decode_error hpc hstrict hdecode)

/-! ### A placed instruction is the one that runs -/

/-- The operand bytes of an encoding are those its operation takes, and the operation builds the instruction from them
again (30_encoding.md R71 to R73). -/
theorem takeOperands_encode (i : Instr) (rest : List Byte) :
    ∃ operands b1 b2, encode i = i.op.opcode :: operands ∧
      i.op.takeOperands (operands ++ rest) = some (b1, b2, rest) ∧ i.op.build b1 b2 = i := by
  cases i <;> exact ⟨_, _, _, rfl, rfl, rfl⟩

/-- Decoding the bytes of a well-formed instruction gives it back and leaves what follows it (R71 to R76). -/
theorem decode_encode_append {i : Instr} (hwf : WellFormed i) (rest : List Byte) :
    decode (encode i ++ rest) = .ok (i, rest) := by
  obtain ⟨operands, b1, b2, hencode, htake, hbuild⟩ := takeOperands_encode i rest
  have hfields : i.op.badField? b1 b2 = none := (badField_none_iff _ _ _).2 (hbuild.symm ▸ hwf)
  simp only [hencode, List.cons_append, decode, ofByte_opcode, htake, hfields, hbuild]

/-- The window begins with the bytes placed at pc, no more than the longest instruction has. -/
theorem window_of_placed {s : State} {bs : List Byte} (h : Placed s bs) (hlen : bs.length ≤ maxLen) :
    s.window = bs ++ s.window.drop bs.length := by
  obtain ⟨-, hend, hcell⟩ := h
  have hle : bs.length ≤ s.window.length := by
    rw [State.window, Memory.length_readFrom]; omega
  have htake : s.window.take bs.length = bs := by
    refine List.ext_getElem (List.length_take_of_le hle) fun k _ hk => ?_
    rw [List.getElem_take, ← hcell k hk]
    exact Memory.getElem_readFrom _ _ _ k _
  calc s.window = s.window.take bs.length ++ s.window.drop bs.length := (List.take_append_drop ..).symm
    _ = bs ++ s.window.drop bs.length := by rw [htake]

/-- Past the two range checks, a fetch gives the instruction the decoder gives. -/
theorem fetch_of_decode_ok {s : State} (hs : OpcodeFetched s) {i : Instr} {rest : List Byte}
    (hd : decode s.window = .ok (i, rest)) : fetch s = .ok i := by
  obtain ⟨-, hpc, hstrict⟩ := hs
  obtain ⟨h, -⟩ | ⟨-, hon, h, -⟩ | ⟨-, -, ⟨e, he, -⟩ | ⟨j, rest', hj, hf⟩⟩ := fetch_cases s
  · omega
  · have := hstrict hon; omega
  · rw [hd] at he; cases he
  · rw [hd] at hj; cases hj; exact hf

/-- Where the bytes at pc are a well-formed instruction's, the step is that instruction's
(40_fetch_decode_execute.md R112). -/
theorem step_of_placed {s : State} {i : Instr} (hwf : WellFormed i) (h : Placed s (encode i)) : step s = exec i s := by
  obtain ⟨-, hlen, -, hmax⟩ := encode_shape i
  have hdecode : decode s.window = .ok (i, s.window.drop (encode i).length) :=
    (congrArg decode (window_of_placed h (hlen ▸ hmax))).trans (decode_encode_append hwf _)
  obtain ⟨hfetched, -, -⟩ := h
  have hfetch : fetch s = .ok i := fetch_of_decode_ok hfetched hdecode
  obtain ⟨hrun, -, -⟩ := hfetched
  simp only [step, hrun, hfetch]

end Sys2Proof.Machine
end

section
/-! PROOFS. PUSH and CALL, and CALL's return address (O31). -/

namespace Sys2Proof.Machine

open Sys2Proof.Claims

/-- The state after the decrement of SP that PUSH and CALL begin with (43_stack.md R207, R214). -/
def State.decSp (s : State) : State := s.setReg .sp (s.reg .sp - 1#8)

/-- SP after the decrement. -/
@[simp] theorem State.decSp_sp (s : State) : s.decSp.reg .sp = s.reg .sp - 1#8 := by
  simp [State.decSp]

/-- Everything PUSH can do on a register that exists (R207, R208). -/
theorem execPush_cases (a : Reg) (s : State) :
    (s.reg .sp = 0#8 ∧ execPush a.byte s = takeFault .push .stackLow 0#9 s) ∨
      (s.reg .sp ≠ 0#8 ∧
        execPush a.byte s = .next ((s.decSp.memWrite (s.decSp.reg .sp) (s.decSp.reg a)).advance 2)) := by
  obtain ⟨h, hdec⟩ | ⟨h, hdec⟩ := spDec_cases (s.reg .sp)
  · exact .inl ⟨h, by simp only [execPush, withReg_byte, hdec]⟩
  · refine .inr ⟨h, ?_⟩
    rw [State.decSp_sp]
    simp only [execPush, withReg_byte, hdec, State.decSp]

/-- Everything CALL can do on a register that exists: RETURN_RANGE before STACK_LOW, or the push and the jump (R213,
R214). -/
theorem execCall_cases (a : Reg) (s : State) :
    (255 < returnAddress s ∧
        execCall a.byte s = takeFault .call .returnRange (BitVec.ofNat 9 (returnAddress s)) s) ∨
      (returnAddress s ≤ 255 ∧ s.reg .sp = 0#8 ∧ execCall a.byte s = takeFault .call .stackLow 0#9 s) ∨
      (returnAddress s ≤ 255 ∧ s.reg .sp ≠ 0#8 ∧
        execCall a.byte s =
          .next ((s.decSp.memWrite (s.decSp.reg .sp) (BitVec.ofNat 8 (returnAddress s))).jump (s.decSp.reg a))) := by
  by_cases hr : 255 < returnAddress s
  · exact .inl ⟨hr, by simp only [execCall, withReg_byte, if_pos hr]⟩
  · have hle := Nat.le_of_not_lt hr
    obtain ⟨h, hdec⟩ | ⟨h, hdec⟩ := spDec_cases (s.reg .sp)
    · exact .inr (.inl ⟨hle, h, by simp only [execCall, withReg_byte, if_neg hr, hdec]⟩)
    · refine .inr (.inr ⟨hle, h, ?_⟩)
      rw [State.decSp_sp]
      simp only [execCall, withReg_byte, if_neg hr, hdec, State.decSp]

/-- Settles O31: a CALL that does not fault has written its return address, which fits in a byte, to the cell that the
new SP names. -/
theorem callsReturnAddressIsPcPlusTwo : Obligations.CallsReturnAddressIsPcPlusTwo := by
  intro s t a hwf hexec hnofault
  have hcall : execCall a.byte s = .next t := hexec
  obtain ⟨-, e⟩ | ⟨-, -, e⟩ | ⟨hfits, -, e⟩ := execCall_cases a s
  · rw [e] at hcall; cases hcall; exact absurd rfl hnofault
  · rw [e] at hcall; cases hcall; exact absurd rfl hnofault
  · rw [e] at hcall
    cases hcall
    have hread := Memory.read_write hwf (s.decSp.reg .sp) (BitVec.ofNat 8 (returnAddress s)) (s.decSp.reg .sp)
    rw [if_pos rfl] at hread
    calc _ = (BitVec.ofNat 8 (returnAddress s)).toNat := congrArg BitVec.toNat hread
      _ = returnAddress s := by rw [BitVec.toNat_ofNat]; omega

end Sys2Proof.Machine
end

section
/-! PROOFS. How an instruction ends, and the events it emits (O43). -/

namespace Sys2Proof.Machine

open Sys2Proof.Claims

/-! ### A fault or a commit -/

/-- What an instruction that commits does to everything but registers, pc, FL and memory: HALT sets the status, the three
printing instructions add one event each, and nothing else changes. -/
structure Commits (i : Instr) (s t : State) : Prop where
  status : t.status = if i = .halt then .halted else s.status
  record : t.fault = s.fault
  args : t.cfg = s.cfg
  output : ∃ e : Option Event, t.out = s.out ++ e.toList ∧ e.isSome = emits i

/-- The two ways an instruction ends: its own fault on the state the step began with, or a commit. -/
def FaultsOrCommits (i : Instr) (s : State) (r : Result) : Prop :=
  (∃ cause info, cause ≠ .noFault ∧ r = takeFault i.op cause info s) ∨ ∃ t, r = .next t ∧ Commits i s t

namespace FaultsOrCommits

variable {i : Instr} {s : State}

/-- A fault with a cause is one of the two ways. -/
theorem fault {cause : FaultCause} {info : PcWord} (hc : cause ≠ .noFault := by decide) :
    FaultsOrCommits i s (takeFault i.op cause info s) :=
  .inl ⟨cause, info, hc, rfl⟩

/-- A commit that touches registers, pc, FL and memory alone. -/
theorem quiet {t : State} (hhalt : i ≠ .halt) (hemits : emits i = false) (hstatus : t.status = s.status)
    (hrecord : t.fault = s.fault) (hargs : t.cfg = s.cfg) (hout : t.out = s.out) : FaultsOrCommits i s (.next t) :=
  .inr ⟨t, rfl, by rw [hstatus, if_neg hhalt], hrecord, hargs, none, by simp [hout], hemits.symm⟩

/-- A commit that emits an event and advances. -/
theorem print (hemits : emits i = true) (kind : EventKind) (v : Byte) (len : Nat) :
    FaultsOrCommits i s (.next ((s.emit kind v).advance len)) :=
  have hhalt : i ≠ .halt := by rintro rfl; cases hemits
  .inr ⟨_, rfl, by simp [hhalt], rfl, rfl, some { kind := kind, value := v }, by simp, hemits.symm⟩

/-- A register field is checked first: BAD_REGISTER, or an instruction on a register that exists. -/
theorem withReg {f : Byte} {k : Reg → Result} (h : ∀ a, FaultsOrCommits i s (k a)) :
    FaultsOrCommits i s (withReg i.op f s k) := by
  obtain ⟨a, -, e⟩ | ⟨-, e⟩ := withReg_cases i.op f s k
  · exact e ▸ h a
  · exact e ▸ fault

end FaultsOrCommits

/-- An ALU operation faults on a field or on its code, or writes a register or FL. -/
theorem executeAlu_faultsOrCommits {i : Instr} (hhalt : i ≠ .halt) (hemits : emits i = false) (code : BitVec 2)
    (ra rb : Byte) (s : State) : FaultsOrCommits i s (executeAlu i.op code ra rb s) := by
  rw [executeAlu, withRegs]
  refine .withReg fun a => .withReg fun b => ?_
  cases alu code (s.reg a) (s.reg b) with
  | none => exact .fault
  | some o =>
    obtain ⟨res, fl⟩ := o
    cases res <;> cases fl <;> exact .quiet hhalt hemits rfl rfl rfl rfl

/-- POP ends in BAD_REGISTER, STACK_HIGH on SP or on the byte popped into R7, or commits. -/
theorem execPop_faultsOrCommits (ra : Byte) (s : State) : FaultsOrCommits (.pop ra) s (execPop ra s) := by
  obtain ⟨a, rfl⟩ | hbad := field_cases ra
  · obtain hsp | hsp := Nat.lt_or_ge (s.reg .sp).toNat s.cfg.stackLimit.toNat
    · obtain hpop | hpop := Nat.lt_or_ge ((s.popInto a).reg .sp).toNat s.cfg.stackLimit.toNat
      · exact execPop_ok hsp hpop ▸ .quiet nofun rfl rfl rfl rfl rfl
      · exact execPop_popped_high hsp hpop ▸ .fault
    · exact execPop_high hsp ▸ .fault
  · have e : execPop ra s = _ := withReg_bad .pop hbad s _
    exact e ▸ .fault

/-- PUSH ends in BAD_REGISTER or STACK_LOW, or commits. -/
theorem execPush_faultsOrCommits (ra : Byte) (s : State) : FaultsOrCommits (.push ra) s (execPush ra s) := by
  obtain ⟨a, rfl⟩ | hbad := field_cases ra
  · obtain ⟨-, e⟩ | ⟨-, e⟩ := execPush_cases a s
    · exact e ▸ .fault
    · exact e ▸ .quiet nofun rfl rfl rfl rfl rfl
  · have e : execPush ra s = _ := withReg_bad .push hbad s _
    exact e ▸ .fault

/-- CALL ends in BAD_REGISTER, RETURN_RANGE or STACK_LOW, or commits. -/
theorem execCall_faultsOrCommits (ra : Byte) (s : State) : FaultsOrCommits (.call ra) s (execCall ra s) := by
  obtain ⟨a, rfl⟩ | hbad := field_cases ra
  · obtain ⟨-, e⟩ | ⟨-, -, e⟩ | ⟨-, -, e⟩ := execCall_cases a s
    · exact e ▸ .fault
    · exact e ▸ .fault
    · exact e ▸ .quiet nofun rfl rfl rfl rfl rfl
  · have e : execCall ra s = _ := withReg_bad .call hbad s _
    exact e ▸ .fault

/-- RET ends in STACK_HIGH, or commits. -/
theorem execRet_faultsOrCommits (s : State) : FaultsOrCommits .ret s (execRet s) := by
  unfold execRet
  cases spInc s.cfg.stackLimit (s.reg .sp) with
  | none => exact .fault
  | some sp => exact .quiet nofun rfl rfl rfl rfl rfl

/-- Every instruction, whatever its operand bytes, takes a fault of its own or commits (40_fetch_decode_execute.md R116,
R125). -/
theorem exec_faultsOrCommits (i : Instr) (s : State) : FaultsOrCommits i s (exec i s) := by
  cases i with
  | halt => exact .inr ⟨s.halt, rfl, rfl, rfl, rfl, none, by simp, rfl⟩
  | printNum ra => exact .withReg fun a => .print rfl .num (s.reg a) 2
  | printChar ra => exact .withReg fun a => .print rfl .char (s.reg a) 2
  | store ra x => exact .withReg fun a => .print rfl .num (s.reg a) 3
  | loadImm ra imm => exact .withReg fun a => .quiet nofun rfl rfl rfl rfl rfl
  | add ra rb => exact executeAlu_faultsOrCommits (i := .add ra rb) nofun rfl 0#2 ra rb s
  | mul ra rb => exact executeAlu_faultsOrCommits (i := .mul ra rb) nofun rfl 1#2 ra rb s
  | compare ra rb => exact executeAlu_faultsOrCommits (i := .compare ra rb) nofun rfl 2#2 ra rb s
  | push ra => exact execPush_faultsOrCommits ra s
  | pop ra => exact execPop_faultsOrCommits ra s
  | call ra => exact execCall_faultsOrCommits ra s
  | ret => exact execRet_faultsOrCommits s
  | jump ra => exact .withReg fun a => .quiet nofun rfl rfl rfl rfl rfl
  | jumpIfEq ra =>
    refine .withReg fun a => ?_
    cases s.flagE <;> exact .quiet nofun rfl rfl rfl rfl rfl
  | jumpIfNe ra =>
    refine .withReg fun a => ?_
    cases s.flagE <;> exact .quiet nofun rfl rfl rfl rfl rfl

/-- A next state of an instruction is its fault's or its commit's. -/
theorem exec_next {i : Instr} {s t : State} (h : exec i s = .next t) :
    (∃ cause info, cause ≠ .noFault ∧ t = s.enterFault { cause := cause, opcode := i.op.opcode, info := info }) ∨
      Commits i s t := by
  obtain ⟨cause, info, hc, e⟩ | ⟨u, e, hu⟩ := exec_faultsOrCommits i s
  · rw [e] at h; cases h; exact .inl ⟨cause, info, hc, rfl⟩
  · rw [e] at h; cases h; exact .inr hu

/-- A commit from status RUN does not end in FAULTED. -/
theorem Commits.status_ne_faulted {i : Instr} {s t : State} (h : Commits i s t) (hrun : s.status = .run) :
    t.status ≠ .faulted := by
  rw [h.status, hrun]
  split <;> nofun

/-- Settles O43: a fault leaves the output, and a commit adds one event exactly for the three printing instructions. -/
theorem onlyPrintsEmitAndOnlyOnCommit : Obligations.OnlyPrintsEmitAndOnlyOnCommit := by
  intro i s t hrun hexec
  have hfetch : ∀ r, fetch s = .error r → step s = .next (s.enterFault r) ∧ (s.enterFault r).out = s.out :=
    fun r hr => ⟨step_of_fetch_error hrun hr, rfl⟩
  obtain ⟨cause, info, -, rfl⟩ | hcommit := exec_next hexec
  · exact ⟨.inl rfl, fun _ => rfl, hfetch⟩
  · obtain ⟨e, hout, he⟩ := hcommit.output
    cases e with
    | none => exact ⟨.inl (by simpa using hout), fun _ => by simpa using hout, hfetch⟩
    | some e =>
      refine ⟨.inr ⟨e, hout⟩, ?_, hfetch⟩
      rintro (hquiet | hfault)
      · rw [hquiet] at he; cases he
      · exact absurd hfault (hcommit.status_ne_faulted hrun)

end Sys2Proof.Machine
end

section
/-! PROOFS. Runs that never end (O39). -/

namespace Sys2Proof.Machine

open Sys2Proof.Claims

/-- Every instruction answers a next state. -/
theorem exec_answers (i : Instr) (s : State) : ∃ t, exec i s = .next t := by
  obtain ⟨_, _, -, e⟩ | ⟨t, e, -⟩ := exec_faultsOrCommits i s
  · exact ⟨_, e⟩
  · exact ⟨t, e⟩

/-- In status RUN there is a step (40_fetch_decode_execute.md R101). -/
theorem step_answers {s : State} (h : s.status = .run) : ∃ t, step s = .next t := by
  obtain ⟨r, -, e⟩ | ⟨i, -, e⟩ := step_run h
  · exact ⟨_, e⟩
  · exact e ▸ exec_answers i s

/-- A state from which no run leaves RUN has a run of every length: each step exists, and what it leads to is such a
state again (R129). -/
theorem exists_runs_of_never_leaves_run {s : State} (hnever : ∀ n t, Runs n s t → t.status = .run) (n : Nat) :
    ∃ t, Runs n s t := by
  induction n generalizing s with
  | zero => exact ⟨s, runs_zero.2 rfl⟩
  | succ n ih =>
    obtain ⟨u, hu⟩ := step_answers (hnever 0 s (runs_zero.2 rfl))
    obtain ⟨t, ht⟩ := ih fun m t hrun => hnever (m + 1) t (runs_succ.2 ⟨u, hu, hrun⟩)
    exact ⟨t, runs_succ.2 ⟨u, hu, ht⟩⟩

/-- A state that steps to itself runs for ever. -/
theorem runs_of_step_self {s : State} (h : step s = .next s) (n : Nat) : Runs n s s := by
  induction n with
  | zero => exact runs_zero.2 rfl
  | succ n ih => exact runs_succ.2 ⟨s, h, ih⟩

/-- JUMP to the pc it stands at changes nothing (44_control_transfer.md R231). -/
theorem execJump_self {s : State} {a : Reg} (h : (s.reg a).toPc = s.pc) : execJump a.byte s = .next s := by
  rw [execJump, withReg_byte, State.jump, h]

/-- Settles O39: no run that stays in RUN ends, and a self-jump steps to the state it began with. -/
theorem aSelfJumpRunsForEver : Obligations.ASelfJumpRunsForEver := by
  refine ⟨fun s _ hnever n => exists_runs_of_never_leaves_run hnever n, fun s a hplaced hself => ?_⟩
  have hstep : step s = exec (.jump a.byte) s := step_of_placed (regFieldOk_byte a) hplaced
  exact runs_of_step_self (hstep.trans (execJump_self hself))

end Sys2Proof.Machine
end

section
/-! PROOFS. The laws of the alu (O26). -/

namespace Sys2Proof.Machine

open Sys2Proof.Claims

/-! ### The three instructions on registers that exist -/

/-- ADD (42_alu.md R176). -/
theorem exec_add_byte (a b : Reg) (s : State) :
    exec (.add a.byte b.byte) s = .next ((s.setReg a (aluAdd (s.reg a) (s.reg b))).advance 3) :=
  have ⟨hadd, _⟩ := alu_cases (s.reg a) (s.reg b)
  executeAlu_byte .add a b s hadd

/-- MUL (R177). -/
theorem exec_mul_byte (a b : Reg) (s : State) :
    exec (.mul a.byte b.byte) s = .next ((s.setReg a (aluMul (s.reg a) (s.reg b))).advance 3) :=
  have ⟨_, hmul, _⟩ := alu_cases (s.reg a) (s.reg b)
  executeAlu_byte .mul a b s hmul

/-- COMPARE (R180). -/
theorem exec_compare_byte (a b : Reg) (s : State) :
    exec (.compare a.byte b.byte) s = .next ((s.setFL (compareFlags (s.reg a) (s.reg b))).advance 3) :=
  have ⟨_, _, hcompare, _⟩ := alu_cases (s.reg a) (s.reg b)
  executeAlu_byte .compare a b s hcompare

/-! ### The results as numbers -/

/-- The register an ALU result was written to holds that result after the advance. -/
theorem setReg_advance_x_same (s : State) (a : Reg) (v : Byte) (n : Nat) : ((s.setReg a v).advance n).x[a] = v :=
  ((s.setReg a v).advance_reg n a).trans (by simp)

/-- The sum wraps modulo 256 (R173, R175). -/
@[simp] theorem aluAdd_toNat (a b : Byte) : (aluAdd a b).toNat = (a.toNat + b.toNat) % 256 :=
  BitVec.toNat_ofNat _ 8

/-- The product keeps its low 8 bits (R173, R175). -/
@[simp] theorem aluMul_toNat (a b : Byte) : (aluMul a b).toNat = a.toNat * b.toNat % 256 :=
  BitVec.toNat_ofNat _ 8

/-- The bits L, G and E of COMPARE's flags answer the three questions of the integer order (R178, R179). -/
theorem compareFlags_bits (a b : Byte) :
    (compareFlags a b).getLsbD 2 = decide (a.toNat < b.toNat) ∧
      (compareFlags a b).getLsbD 1 = decide (b.toNat < a.toNat) ∧
        (compareFlags a b).getLsbD 0 = decide (a.toNat = b.toNat) := by
  obtain ⟨h, e⟩ | ⟨h, e⟩ | ⟨rfl, e⟩ := compareFlags_cases a b
  · simp [e, h, h.ne, h.le]
  · simp [e, h, h.ne', h.le]
  · simp [e]

/-- Of three flags that answer `<`, `>` and `=` on two numbers, exactly one is set (R178). -/
theorem exactly_one_order_flag (m n : Nat) :
    (decide (m < n) = true ∧ decide (n < m) = false ∧ decide (m = n) = false) ∨
      (decide (m < n) = false ∧ decide (n < m) = true ∧ decide (m = n) = false) ∨
        (decide (m < n) = false ∧ decide (n < m) = false ∧ decide (m = n) = true) := by
  simp only [decide_eq_true_eq, decide_eq_false_iff_not]
  omega

/-- Settles O26, from what each instruction writes, read as a number or as its three flags. -/
theorem aluLawsOfTheSource : Obligations.AluLawsOfTheSource := by
  intro a b s
  refine ⟨⟨_, exec_add_byte a b s, ?_⟩, ⟨_, exec_mul_byte a b s, ?_⟩, ⟨_, exec_compare_byte a b s, ?_⟩⟩
  · rw [setReg_advance_x_same, aluAdd_toNat]; rfl
  · rw [setReg_advance_x_same, aluMul_toNat]; rfl
  · obtain ⟨hL, hG, hE⟩ := compareFlags_bits (s.reg a) (s.reg b)
    rw [State.flagL, State.flagG, State.flagE, State.advance_FL, State.setFL_FL, hL, hG, hE]
    exact ⟨decide_eq_true_iff, decide_eq_true_iff, decide_eq_true_iff, exactly_one_order_flag _ _⟩

end Sys2Proof.Machine
end

section
/-! PROOFS. The conditional jumps test E alone (O37). -/

namespace Sys2Proof.Machine

/-- The state after a conditional jump to x[ra] (44_control_transfer.md R232). -/
def State.branch (s : State) (taken : Bool) (a : Reg) : State :=
  if taken then s.jump (s.reg a) else s.advance 2

/-- JUMP_IF_EQ branches on E (R233). -/
theorem exec_jumpIfEq_byte (a : Reg) (s : State) : exec (.jumpIfEq a.byte) s = .next (s.branch s.flagE a) :=
  withReg_byte .jumpIfEq a s _

/-- JUMP_IF_NE branches on the complement of E (R234). -/
theorem exec_jumpIfNe_byte (a : Reg) (s : State) : exec (.jumpIfNe a.byte) s = .next (s.branch (!s.flagE) a) := by
  refine (withReg_byte .jumpIfNe a s _).trans ?_
  cases h : s.flagE <;> simp [State.branch]

/-- A jump not taken advances by 2 (R232). -/
theorem State.branch_pc_not_taken (s : State) {taken : Bool} (h : taken = false) (a : Reg) :
    (s.branch taken a).pc = s.pc + 2#9 := by
  subst h; rfl

/-- Once it is settled whether the jump is taken, FL plays no part in where it goes. -/
theorem State.setFL_branch (s : State) (f : Byte) (taken : Bool) (a : Reg) :
    (s.setFL f).branch taken a = (s.branch taken a).setFL f := by
  cases taken <;> rfl

/-- A byte with the same bit 0 as FL, put in its place, leaves E as it is (10_state.md R34). -/
theorem State.setFL_flagE_of_bit_eq {s : State} {f : Byte} (h : f.getLsbD 0 = s.FL.getLsbD 0) :
    (s.setFL f).flagE = s.flagE := h

/-- Settles O37: both jumps branch on a function of E, which the replaced FL leaves as it is. -/
theorem conditionalJumpsTestOnlyE : Obligations.ConditionalJumpsTestOnlyE := by
  rintro s f a i (rfl | rfl) hbit
  · have hrun : exec (.jumpIfEq a.byte) (s.setFL f) = .next ((s.branch s.flagE a).setFL f) := by
      rw [exec_jumpIfEq_byte, State.setFL_flagE_of_bit_eq hbit, State.setFL_branch]
    exact ⟨_, _, exec_jumpIfEq_byte a s, hrun, rfl, fun _ hE => s.branch_pc_not_taken hE a, nofun⟩
  · have hrun : exec (.jumpIfNe a.byte) (s.setFL f) = .next ((s.branch (!s.flagE) a).setFL f) := by
      rw [exec_jumpIfNe_byte, State.setFL_flagE_of_bit_eq hbit, State.setFL_branch]
    exact ⟨_, _, exec_jumpIfNe_byte a s, hrun, rfl, nofun,
      fun _ hE => s.branch_pc_not_taken (congrArg not hE) a⟩

end Sys2Proof.Machine
end

section
/-! PROOFS. The decoder and the encoder undo each other (O6, O7), and the decoder's table (O1, O2, O4). -/

namespace Sys2Proof.Machine

open Sys2Proof.Claims

/-- Settles O6. -/
theorem decodeOfEncode : Obligations.DecodeOfEncode :=
  fun _ rest hwf => decode_encode_append hwf rest

/-! ### Bytes that decode -/

/-- An instruction's bytes are its operation's opcode and as many operand bytes as the length calls for
(30_encoding.md R71 to R73). -/
theorem encode_build (op : Op) (b1 b2 : Byte) :
    encode (op.build b1 b2) = op.opcode :: [b1, b2].take (op.len - 1) := by
  cases op <;> rfl

/-- The instruction an operation builds is of that operation. -/
@[simp] theorem build_op (op : Op) (b1 b2 : Byte) : (op.build b1 b2).op = op := by
  cases op <;> rfl

/-- The operand bytes taken stand in front of the rest (R102). -/
theorem takeOperands_some {op : Op} {tail rest : List Byte} {b1 b2 : Byte}
    (h : op.takeOperands tail = some (b1, b2, rest)) : tail = [b1, b2].take (op.len - 1) ++ rest := by
  obtain ⟨hlow, hhigh⟩ := len_bounds op
  obtain hlen | hlen | hlen : op.len = 1 ∨ op.len = 2 ∨ op.len = 3 := by omega
  · simp only [Op.takeOperands, hlen] at h
    cases h; simp [hlen]
  · rcases tail with _ | ⟨c1, tail⟩ <;> simp only [Op.takeOperands, hlen] at h
    · cases h
    · cases h; simp [hlen]
  · rcases tail with _ | ⟨c1, _ | ⟨c2, tail⟩⟩ <;> simp only [Op.takeOperands, hlen] at h
    · cases h
    · cases h
    · cases h; simp [hlen]

/-- Bytes that decode begin with an opcode, have its operand bytes, and pass the register check. -/
theorem decode_ok {bs rest : List Byte} {i : Instr} (h : decode bs = .ok (i, rest)) :
    ∃ (op : Op) (tail : List Byte) (b1 b2 : Byte), bs = op.opcode :: tail ∧ op.takeOperands tail = some (b1, b2, rest) ∧
      op.badField? b1 b2 = none ∧ i = op.build b1 b2 := by
  cases bs with
  | nil => cases h
  | cons b tail =>
    obtain ⟨-, e⟩ | ⟨op, rfl, ⟨-, e⟩ | ⟨b1, b2, rest', htake, ⟨f, -, e⟩ | ⟨hfields, e⟩⟩⟩ := decode_cons b tail <;>
      rw [e] at h <;> cases h
    exact ⟨op, tail, b1, b2, rfl, htake, hfields, rfl⟩

/-- Settles O7: the bytes are an opcode and the operands its length calls for, which is how the encoder writes the
instruction built from them, and the register check is well-formedness. -/
theorem encodeOfDecode : Obligations.EncodeOfDecode := by
  intro bs i rest h
  obtain ⟨op, tail, b1, b2, rfl, htake, hfields, rfl⟩ := decode_ok h
  refine ⟨(badField_none_iff op b1 b2).1 hfields, ?_⟩
  rw [encode_build, List.cons_append, ← takeOperands_some htake]

/-! ### The table -/

/-- Settles O1: the encoder gives eight of the words, so the round trip decodes them; a register field of 8 and a missing
operand byte are rejected. -/
theorem specWordsDecode : Obligations.SpecWordsDecode :=
  have good (i : Instr) (hwf : WellFormed i) : decode (encode i) = .ok (i, []) := by
    simpa using decode_encode_append hwf []
  ⟨good .halt rfl, good (.loadImm 0#8 8#8) rfl, good (.mul 0#8 1#8) rfl, good (.printNum 0#8) rfl,
    good (.call 1#8) rfl, good .ret rfl, good (.jumpIfNe 3#8) rfl, good (.store 1#8 0#8) rfl, rfl,
    decode_missingOperand (op := .printNum) (rest := []) (by decide)⟩

/-- Settles O2: the rows are the model's table, read off. -/
theorem decoderTableRows : Obligations.DecoderTableRows :=
  ⟨rfl, fun op => by cases op <;> decide⟩

/-- Settles O4, operation by operation. -/
theorem opcodeBitsAgreeWithTheTable : Obligations.OpcodeBitsAgreeWithTheTable := by
  intro op
  refine ⟨(lenOf_opcode op).symm, ?_, ?_⟩
  · cases op <;> rfl
  · cases op <;> decide

end Sys2Proof.Machine
end

section
/-! PROOFS. Everything an instruction can do, said once: its fault, or its effect. -/

namespace Sys2Proof.Machine

open Sys2Proof.Claims

/-- The effect of an instruction that does not fault, one case per instruction (41_data_and_io.md, 42_alu.md section 3,
43_stack.md section 2, 44_control_transfer.md). -/
inductive Effect (s : State) : Instr → State → Prop where
  | halt : Effect s .halt s.halt
  | printNum (a : Reg) : Effect s (.printNum a.byte) ((s.emit .num (s.reg a)).advance 2)
  | loadImm (a : Reg) (imm : Byte) : Effect s (.loadImm a.byte imm) ((s.setReg a imm).advance 3)
  | mul (a b : Reg) : Effect s (.mul a.byte b.byte) ((s.setReg a (aluMul (s.reg a) (s.reg b))).advance 3)
  | push (a : Reg) (hsp : s.reg .sp ≠ 0#8) :
      Effect s (.push a.byte) ((s.decSp.memWrite (s.decSp.reg .sp) (s.decSp.reg a)).advance 2)
  | pop (a : Reg) (hsp : (s.reg .sp).toNat < s.cfg.stackLimit.toNat)
      (hpop : ((s.popInto a).reg .sp).toNat < s.cfg.stackLimit.toNat) :
      Effect s (.pop a.byte) (((s.popInto a).setReg .sp ((s.popInto a).reg .sp + 1#8)).advance 2)
  | call (a : Reg) (hfits : returnAddress s ≤ 255) (hsp : s.reg .sp ≠ 0#8) :
      Effect s (.call a.byte)
        ((s.decSp.memWrite (s.decSp.reg .sp) (BitVec.ofNat 8 (returnAddress s))).jump (s.decSp.reg a))
  | ret (hsp : (s.reg .sp).toNat < s.cfg.stackLimit.toNat) :
      Effect s .ret ((s.setReg .sp (s.reg .sp + 1#8)).jump (s.mem.read (s.reg .sp)))
  | add (a b : Reg) : Effect s (.add a.byte b.byte) ((s.setReg a (aluAdd (s.reg a) (s.reg b))).advance 3)
  | store (a : Reg) (x : Byte) : Effect s (.store a.byte x) ((s.emit .num (s.reg a)).advance 3)
  | jump (a : Reg) : Effect s (.jump a.byte) (s.jump (s.reg a))
  | printChar (a : Reg) : Effect s (.printChar a.byte) ((s.emit .char (s.reg a)).advance 2)
  | compare (a b : Reg) : Effect s (.compare a.byte b.byte) ((s.setFL (compareFlags (s.reg a) (s.reg b))).advance 3)
  | jumpIfEq (a : Reg) : Effect s (.jumpIfEq a.byte) (s.branch s.flagE a)
  | jumpIfNe (a : Reg) : Effect s (.jumpIfNe a.byte) (s.branch (!s.flagE) a)

/-- The faults of an instruction whose register fields are good, each with its cause and info (43_stack.md R201, R202,
R213). -/
inductive StackFault (s : State) : Instr → FaultCause → PcWord → Prop where
  | pushLow (a : Reg) (hsp : s.reg .sp = 0#8) : StackFault s (.push a.byte) .stackLow 0#9
  | popHigh (a : Reg) (hsp : s.cfg.stackLimit.toNat ≤ (s.reg .sp).toNat) :
      StackFault s (.pop a.byte) .stackHigh (s.reg .sp).toPc
  | popPoppedHigh (hpop : s.cfg.stackLimit.toNat ≤ (s.mem.read (s.reg .sp)).toNat) :
      StackFault s (.pop (Reg.byte .sp)) .stackHigh (s.mem.read (s.reg .sp)).toPc
  | callRange (a : Reg) (hlong : 255 < returnAddress s) :
      StackFault s (.call a.byte) .returnRange (BitVec.ofNat 9 (returnAddress s))
  | callLow (a : Reg) (hsp : s.reg .sp = 0#8) : StackFault s (.call a.byte) .stackLow 0#9
  | retHigh (hsp : s.cfg.stackLimit.toNat ≤ (s.reg .sp).toNat) : StackFault s .ret .stackHigh (s.reg .sp).toPc

/-! ### The instructions on registers that exist -/

/-- PRINT_NUM (41_data_and_io.md R143). -/
theorem exec_printNum_byte (a : Reg) (s : State) :
    exec (.printNum a.byte) s = .next ((s.emit .num (s.reg a)).advance 2) := withReg_byte .printNum a s _

/-- PRINT_CHAR (R144). -/
theorem exec_printChar_byte (a : Reg) (s : State) :
    exec (.printChar a.byte) s = .next ((s.emit .char (s.reg a)).advance 2) := withReg_byte .printChar a s _

/-- STORE (R152). -/
theorem exec_store_byte (a : Reg) (x : Byte) (s : State) :
    exec (.store a.byte x) s = .next ((s.emit .num (s.reg a)).advance 3) := withReg_byte .store a s _

/-- LOAD_IMM (R142). -/
theorem exec_loadImm_byte (a : Reg) (imm : Byte) (s : State) :
    exec (.loadImm a.byte imm) s = .next ((s.setReg a imm).advance 3) := withReg_byte .loadImm a s _

/-- JUMP (44_control_transfer.md R231). -/
theorem exec_jump_byte (a : Reg) (s : State) : exec (.jump a.byte) s = .next (s.jump (s.reg a)) :=
  withReg_byte .jump a s _

/-- Everything RET can do (43_stack.md R217). -/
theorem execRet_cases (s : State) :
    (s.cfg.stackLimit.toNat ≤ (s.reg .sp).toNat ∧ execRet s = takeFault .ret .stackHigh (s.reg .sp).toPc s) ∨
      ((s.reg .sp).toNat < s.cfg.stackLimit.toNat ∧
        execRet s = .next ((s.setReg .sp (s.reg .sp + 1#8)).jump (s.mem.read (s.reg .sp)))) := by
  obtain ⟨h, e⟩ | ⟨h, e⟩ := spInc_cases s.cfg.stackLimit (s.reg .sp)
  · exact .inl ⟨h, by simp only [execRet, e]⟩
  · exact .inr ⟨h, by simp only [execRet, e]⟩

/-! ### A field that names no register -/

/-- A field that passes the register check names a register. -/
theorem byte_of_regFieldOk {f : Byte} (h : regFieldOk f = true) : ∃ a : Reg, f = a.byte :=
  (field_cases f).resolve_right (Nat.not_le.2 ((regFieldOk_iff f).1 h))

/-- Two fields that pass the register check name registers. -/
theorem bytes_of_regFieldsOk {f g : Byte} (h : (regFieldOk f && regFieldOk g) = true) :
    (∃ a : Reg, f = a.byte) ∧ ∃ b : Reg, g = b.byte := by
  rw [Bool.and_eq_true] at h
  exact ⟨byte_of_regFieldOk h.1, byte_of_regFieldOk h.2⟩

/-- An operation whose byte 2 is a register field has one in byte 1 too (30_encoding.md R84). -/
theorem usesRa_of_usesRb {op : Op} (h : op.usesRb = true) : op.usesRa = true := by
  revert h; cases op <;> decide

/-- The field the register check reports: byte 1, or byte 2 after a byte 1 that names a register
(40_fetch_decode_execute.md R111). -/
theorem badField_some {op : Op} {b1 b2 f : Byte} (h : op.badField? b1 b2 = some f) :
    (op.usesRa = true ∧ 8 ≤ b1.toNat ∧ f = b1) ∨ (op.usesRb = true ∧ b1.toNat < 8 ∧ 8 ≤ b2.toNat ∧ f = b2) := by
  simp only [Op.badField?, regFieldOk, Bool.and_eq_true, Bool.not_eq_true', decide_eq_false_iff_not, Nat.not_lt] at h
  split at h
  next h1 => exact .inl ⟨h1.1, h1.2, (Option.some.inj h).symm⟩
  next h1 =>
    split at h
    next h2 => exact .inr ⟨h2.1, by simpa [usesRa_of_usesRb h2.1] using h1, h2.2, (Option.some.inj h).symm⟩
    next => cases h

/-- A byte 1 of 8 or more, where it is a register field. -/
theorem badField_ra {op : Op} {b1 : Byte} (hra : op.usesRa = true) (h : 8 ≤ b1.toNat) (b2 : Byte) :
    op.badField? b1 b2 = some b1 := by
  simp [Op.badField?, regFieldOk, hra, Nat.not_lt.2 h]

/-- A byte 2 of 8 or more, where it is a register field, after a byte 1 that names a register. -/
theorem badField_rb {op : Op} {b1 b2 : Byte} (hrb : op.usesRb = true) (h1 : b1.toNat < 8) (h2 : 8 ≤ b2.toNat) :
    op.badField? b1 b2 = some b2 := by
  simp [Op.badField?, regFieldOk, hrb, h1, Nat.not_lt.2 h2]

/-- A register field of 8 or more is reported, whichever it is. -/
theorem badField_ne_none {op : Op} {b1 b2 : Byte}
    (h : (op.usesRa = true ∧ 8 ≤ b1.toNat) ∨ (op.usesRb = true ∧ 8 ≤ b2.toNat)) : op.badField? b1 b2 ≠ none := by
  obtain ⟨hra, hbad⟩ | ⟨hrb, hbad⟩ := h
  · rw [badField_ra hra hbad]; nofun
  · obtain h1 | h1 := Nat.lt_or_ge b1.toNat 8
    · rw [badField_rb hrb h1 hbad]; nofun
    · rw [badField_ra (usesRa_of_usesRb hrb) h1]; nofun

/-- An instruction on a field that names no register takes BAD_REGISTER with that field (R111). -/
theorem exec_build_bad {op : Op} {b1 b2 f : Byte} (h : op.badField? b1 b2 = some f) (s : State) :
    exec (op.build b1 b2) s = takeFault op .badRegister f.toPc s := by
  obtain ⟨hra, hbad, rfl⟩ | ⟨hrb, hgood, hbad, rfl⟩ := badField_some h
  · cases op
    case halt | ret => cases hra
    all_goals exact withReg_bad _ hbad s _
  · obtain ⟨a, rfl⟩ := byte_of_regFieldOk ((regFieldOk_iff b1).2 hgood)
    cases op
    case add | mul | compare => exact (withReg_byte _ a s _).trans (withReg_bad _ hbad s _)
    all_goals cases hrb

/-! ### Every instruction -/

/-- Every instruction is built from its operation and two bytes. -/
theorem exists_build (i : Instr) : ∃ b1 b2, i.op.build b1 b2 = i := by
  obtain ⟨-, b1, b2, -, -, h⟩ := takeOperands_encode i []
  exact ⟨b1, b2, h⟩

/-- How a well-formed instruction ends: a fault of the stack, or its effect. -/
theorem exec_ends_of_wellFormed {i : Instr} (hwf : WellFormed i) (s : State) :
    (∃ cause info, StackFault s i cause info ∧ exec i s = takeFault i.op cause info s) ∨
      ∃ t, Effect s i t ∧ exec i s = .next t := by
  cases i with
  | halt => exact .inr ⟨_, .halt, rfl⟩
  | printNum ra =>
    obtain ⟨a, rfl⟩ := byte_of_regFieldOk hwf
    exact .inr ⟨_, .printNum a, exec_printNum_byte a s⟩
  | loadImm ra imm =>
    obtain ⟨a, rfl⟩ := byte_of_regFieldOk hwf
    exact .inr ⟨_, .loadImm a imm, exec_loadImm_byte a imm s⟩
  | mul ra rb =>
    obtain ⟨⟨a, rfl⟩, ⟨b, rfl⟩⟩ := bytes_of_regFieldsOk hwf
    exact .inr ⟨_, .mul a b, exec_mul_byte a b s⟩
  | push ra =>
    obtain ⟨a, rfl⟩ := byte_of_regFieldOk hwf
    obtain ⟨h, e⟩ | ⟨h, e⟩ := execPush_cases a s
    · exact .inl ⟨_, _, .pushLow a h, e⟩
    · exact .inr ⟨_, .push a h, e⟩
  | pop ra =>
    obtain ⟨a, rfl⟩ := byte_of_regFieldOk hwf
    obtain hsp | hsp := Nat.lt_or_ge (s.reg .sp).toNat s.cfg.stackLimit.toNat
    · obtain hpop | hpop := Nat.lt_or_ge ((s.popInto a).reg .sp).toNat s.cfg.stackLimit.toNat
      · exact .inr ⟨_, .pop a hsp hpop, execPop_ok hsp hpop⟩
      · obtain rfl : a = .sp := by
          by_contra ha
          rw [s.popInto_sp_of_ne ha] at hpop
          omega
        have e := execPop_popped_high hsp hpop
        rw [s.popInto_sp_same] at e hpop
        exact .inl ⟨_, _, .popPoppedHigh hpop, e⟩
    · exact .inl ⟨_, _, .popHigh a hsp, execPop_high hsp⟩
  | call ra =>
    obtain ⟨a, rfl⟩ := byte_of_regFieldOk hwf
    obtain ⟨h, e⟩ | ⟨-, h, e⟩ | ⟨hfits, hsp, e⟩ := execCall_cases a s
    · exact .inl ⟨_, _, .callRange a h, e⟩
    · exact .inl ⟨_, _, .callLow a h, e⟩
    · exact .inr ⟨_, .call a hfits hsp, e⟩
  | ret =>
    obtain ⟨h, e⟩ | ⟨h, e⟩ := execRet_cases s
    · exact .inl ⟨_, _, .retHigh h, e⟩
    · exact .inr ⟨_, .ret h, e⟩
  | add ra rb =>
    obtain ⟨⟨a, rfl⟩, ⟨b, rfl⟩⟩ := bytes_of_regFieldsOk hwf
    exact .inr ⟨_, .add a b, exec_add_byte a b s⟩
  | store ra x =>
    obtain ⟨a, rfl⟩ := byte_of_regFieldOk hwf
    exact .inr ⟨_, .store a x, exec_store_byte a x s⟩
  | jump ra =>
    obtain ⟨a, rfl⟩ := byte_of_regFieldOk hwf
    exact .inr ⟨_, .jump a, exec_jump_byte a s⟩
  | printChar ra =>
    obtain ⟨a, rfl⟩ := byte_of_regFieldOk hwf
    exact .inr ⟨_, .printChar a, exec_printChar_byte a s⟩
  | compare ra rb =>
    obtain ⟨⟨a, rfl⟩, ⟨b, rfl⟩⟩ := bytes_of_regFieldsOk hwf
    exact .inr ⟨_, .compare a b, exec_compare_byte a b s⟩
  | jumpIfEq ra =>
    obtain ⟨a, rfl⟩ := byte_of_regFieldOk hwf
    exact .inr ⟨_, .jumpIfEq a, exec_jumpIfEq_byte a s⟩
  | jumpIfNe ra =>
    obtain ⟨a, rfl⟩ := byte_of_regFieldOk hwf
    exact .inr ⟨_, .jumpIfNe a, exec_jumpIfNe_byte a s⟩

/-- A next state of any instruction is that of a fault, or its effect. -/
theorem exec_next_effect {i : Instr} {s t : State} (h : exec i s = .next t) :
    (∃ cause info, t = s.enterFault { cause := cause, opcode := i.op.opcode, info := info }) ∨ Effect s i t := by
  obtain ⟨b1, b2, hbuild⟩ := exists_build i
  cases hfields : i.op.badField? b1 b2 with
  | some f =>
    have e := exec_build_bad hfields s
    rw [hbuild, h] at e
    cases e
    exact .inl ⟨_, _, rfl⟩
  | none =>
    have hwf : WellFormed i := hbuild ▸ (badField_none_iff _ _ _).1 hfields
    obtain ⟨cause, info, -, e⟩ | ⟨u, hu, e⟩ := exec_ends_of_wellFormed hwf s
    · rw [h] at e; cases e; exact .inl ⟨_, _, rfl⟩
    · rw [h] at e; cases e; exact .inr hu

end Sys2Proof.Machine
end

section
/-! PROOFS. What a fetch finds at pc, and the invariant (O46, O47, O50, O51, O52). -/

namespace Sys2Proof.Machine

open Sys2Proof.Claims

/-! ### Memory -/

/-- Settles O46. -/
theorem memoryReadsTheLastWrite : Obligations.MemoryReadsTheLastWrite :=
  fun _ a v b hwf => ⟨Memory.wf_write hwf a v, Memory.read_write hwf a v b⟩

/-- A canonical list's first cell is at an address below 256, holds a byte that is not 0, and the rest lies above it. -/
theorem Memory.wfFrom_cons {lo k : Nat} {v : Byte} {m : Memory} :
    Memory.wfFrom lo ((k, v) :: m) = true ↔ lo ≤ k ∧ k < 256 ∧ v ≠ 0#8 ∧ m.wfFrom (k + 1) = true := by
  simp [Memory.wfFrom, and_assoc]

/-- The first cell of a list is what its address reads. -/
theorem Memory.read_cons_same {k : Nat} (hk : k < 256) (v : Byte) (m : Memory) :
    Memory.read ((k, v) :: m) (BitVec.ofNat 8 k) = v := by
  rw [Memory.read, if_pos (by rw [BitVec.toNat_ofNat]; omega)]

/-- Two canonical memories that read the same have their first cell at the same address: below the first address of either
everything reads as 0. -/
theorem Memory.first_le_of_read_eq {k k' : Nat} {v v' : Byte} {m m' : Memory} (hk' : k' < 256) (hv' : v' ≠ 0#8)
    (hwf : Memory.wfFrom k ((k, v) :: m) = true)
    (h : ∀ a, Memory.read ((k, v) :: m) a = Memory.read ((k', v') :: m') a) : k ≤ k' := by
  by_contra hlt
  have hzero := Memory.read_of_wfFrom hwf (a := BitVec.ofNat 8 k') (by rw [BitVec.toNat_ofNat]; omega)
  rw [h, Memory.read_cons_same hk'] at hzero
  exact hv' hzero

/-- Canonical memories that read the same are the same list. -/
theorem Memory.eq_of_read_eq {m m' : Memory} {lo lo' : Nat} (hwf : m.wfFrom lo = true) (hwf' : m'.wfFrom lo' = true)
    (h : ∀ a, m.read a = m'.read a) : m = m' := by
  induction m generalizing m' lo lo' with
  | nil =>
    rcases m' with _ | ⟨⟨k', v'⟩, m'⟩
    · rfl
    · obtain ⟨-, hk', hv', -⟩ := Memory.wfFrom_cons.1 hwf'
      exact absurd ((Memory.read_cons_same hk' v' m').symm.trans (h _).symm) hv'
  | cons c m ih =>
    obtain ⟨k, v⟩ := c
    obtain ⟨-, hk, hv, ht⟩ := Memory.wfFrom_cons.1 hwf
    rcases m' with _ | ⟨⟨k', v'⟩, m'⟩
    · exact absurd ((Memory.read_cons_same hk v m).symm.trans (h _)) hv
    · obtain ⟨-, hk', hv', ht'⟩ := Memory.wfFrom_cons.1 hwf'
      have hle := Memory.first_le_of_read_eq hk' hv' (Memory.wfFrom_cons.2 ⟨le_rfl, hk, hv, ht⟩) h
      have hge := Memory.first_le_of_read_eq hk hv (Memory.wfFrom_cons.2 ⟨le_rfl, hk', hv', ht'⟩) fun a => (h a).symm
      obtain rfl : k = k' := Nat.le_antisymm hle hge
      have hvv := h (BitVec.ofNat 8 k)
      rw [Memory.read_cons_same hk, Memory.read_cons_same hk] at hvv
      subst hvv
      congr 1
      refine ih ht ht' fun a => ?_
      by_cases ha : k = a.toNat
      · rw [Memory.read_of_wfFrom ht (by omega), Memory.read_of_wfFrom ht' (by omega)]
      · have := h a
        rwa [Memory.read, if_neg ha, Memory.read, if_neg ha] at this

/-- Settles O47. -/
theorem equalMemoriesAreEqualData : Obligations.EqualMemoriesAreEqualData :=
  fun _ _ hwf hwf' h => Memory.eq_of_read_eq hwf hwf' h

/-- Bytes written from `n` on: a cell they cover reads its byte, every other cell as before (20_memory.md R61). -/
theorem Memory.read_writeFrom {m : Memory} (hwf : m.wf = true) {n : Nat} {bs : List Byte} (hlen : n + bs.length ≤ 256)
    (a : Byte) :
    (m.writeFrom n bs).read a = if n ≤ a.toNat then bs.getD (a.toNat - n) (m.read a) else m.read a := by
  induction bs generalizing m n with
  | nil => simp [Memory.writeFrom]
  | cons b bs ih =>
    rw [List.length_cons] at hlen
    have hn : n < 256 := by omega
    rw [Memory.writeFrom, if_pos hn, ih (Memory.wf_write hwf _ _) (by omega), Memory.read_write hwf]
    have haddr : a = BitVec.ofNat 8 n ↔ a.toNat = n := by
      rw [← BitVec.toNat_inj, BitVec.toNat_ofNat, Nat.mod_eq_of_lt hn]
    obtain hlt | heq | hgt := Nat.lt_trichotomy a.toNat n
    · simp [haddr, Nat.not_le.2 hlt, hlt.ne, show ¬ n + 1 ≤ a.toNat by omega]
    · simp [haddr, heq]
    · obtain ⟨j, hj⟩ : ∃ j, a.toNat - n = j + 1 := ⟨a.toNat - n - 1, by omega⟩
      simp [haddr, hgt.ne', hgt.le, hj, show n + 1 ≤ a.toNat by omega, show a.toNat - (n + 1) = j by omega]

/-! ### The bytes at pc -/

/-- A byte of the window is the cell at its place. -/
theorem getElem_window (s : State) (k : Nat) (h : k < s.window.length) : s.window[k] = cell s k :=
  Memory.getElem_readFrom ..

/-- The instruction a fetch gives is well formed, and its bytes are those at pc (40_fetch_decode_execute.md R112). -/
theorem placed_of_fetch {s : State} {i : Instr} (hrun : s.status = .run) (h : fetch s = .ok i) :
    WellFormed i ∧ Placed s (encode i) := by
  obtain ⟨-, e⟩ | ⟨-, -, -, e⟩ | ⟨hpc, hstrict, ⟨_, -, e⟩ | ⟨j, rest, hdecode, e⟩⟩ := fetch_cases s <;>
    rw [e] at h <;> cases h
  obtain ⟨hwf, hwindow⟩ := encodeOfDecode _ _ _ hdecode
  have hlen : s.window.length = min maxLen (256 - s.pc.toNat) := Memory.length_readFrom ..
  have hle : (encode i).length ≤ s.window.length := by rw [hwindow, List.length_append]; omega
  refine ⟨hwf, ⟨hrun, hpc, hstrict⟩, by omega, fun k hk => ?_⟩
  rw [← getElem_window s k (by omega)]
  simp only [hwindow, List.getElem_append_left hk]

/-- Where a well-formed instruction is placed, the fetch gives it. -/
theorem fetch_of_placed {s : State} {i : Instr} (hwf : WellFormed i) (h : Placed s (encode i)) : fetch s = .ok i := by
  obtain ⟨-, hlen, -, hmax⟩ := encode_shape i
  have hdecode := decode_encode_append hwf (s.window.drop (encode i).length)
  rw [← window_of_placed h (hlen ▸ hmax)] at hdecode
  obtain ⟨hfetched, -, -⟩ := h
  exact fetch_of_decode_ok hfetched hdecode

/-- The opcode of a placed instruction is the byte at pc. -/
theorem cell_zero_of_placed {s : State} {i : Instr} (h : Placed s (encode i)) : cell s 0 = i.op.opcode := by
  obtain ⟨-, -, hcell⟩ := h
  obtain ⟨hhead, hlen, hlow, -⟩ := encode_shape i
  have h0 : 0 < (encode i).length := by omega
  rw [hcell 0 h0]
  rw [List.head?_eq_getElem?, List.getElem?_eq_getElem h0] at hhead
  exact Option.some.inj hhead

/-- How a step ends: the fault of the fetch, a fault of the stack, or the effect of the instruction placed at pc. -/
theorem step_next_cases {s t : State} (h : step s = .next t) :
    s.status = .run ∧
      ((∃ r, fetch s = .error r ∧ t = s.enterFault r) ∨
        ∃ i, Placed s (encode i) ∧
          ((∃ cause info, StackFault s i cause info ∧
              t = s.enterFault { cause := cause, opcode := i.op.opcode, info := info }) ∨
            Effect s i t)) := by
  obtain ⟨hrun, hfault | ⟨i, hfetch, hexec⟩⟩ := step_next h
  · exact ⟨hrun, .inl hfault⟩
  · obtain ⟨hwf, hplaced⟩ := placed_of_fetch hrun hfetch
    refine ⟨hrun, .inr ⟨i, hplaced, ?_⟩⟩
    obtain ⟨cause, info, hfault, e⟩ | ⟨u, heffect, e⟩ := exec_ends_of_wellFormed hwf s
    · rw [hexec] at e; cases e; exact .inl ⟨cause, info, hfault, rfl⟩
    · rw [hexec] at e; cases e; exact .inr heffect

/-! ### What an effect keeps -/

@[simp] theorem State.branch_x (s : State) (b : Bool) (a : Reg) : (s.branch b a).x = s.x := by cases b <;> rfl
@[simp] theorem State.branch_FL (s : State) (b : Bool) (a : Reg) : (s.branch b a).FL = s.FL := by cases b <;> rfl
@[simp] theorem State.branch_mem (s : State) (b : Bool) (a : Reg) : (s.branch b a).mem = s.mem := by cases b <;> rfl
@[simp] theorem State.branch_status (s : State) (b : Bool) (a : Reg) : (s.branch b a).status = s.status := by
  cases b <;> rfl
@[simp] theorem State.branch_fault (s : State) (b : Bool) (a : Reg) : (s.branch b a).fault = s.fault := by
  cases b <;> rfl
@[simp] theorem State.branch_out (s : State) (b : Bool) (a : Reg) : (s.branch b a).out = s.out := by cases b <;> rfl
@[simp] theorem State.branch_cfg (s : State) (b : Bool) (a : Reg) : (s.branch b a).cfg = s.cfg := by cases b <;> rfl

namespace Effect

variable {s t : State} {i : Instr}

/-- Memory stays canonical (20_memory.md R50). -/
theorem mem_wf (h : Effect s i t) (hwf : s.mem.wf = true) : t.mem.wf = true := by
  cases h with
  | push | call => exact Memory.wf_write hwf _ _
  | jumpIfEq | jumpIfNe => simpa using hwf
  | _ => exact hwf

/-- FL is kept, but by COMPARE, which leaves one of its three values (10_state.md R35). -/
theorem FL_cases (h : Effect s i t) :
    ((∀ ra rb, i ≠ .compare ra rb) ∧ t.FL = s.FL) ∨
      ((∃ ra rb, i = .compare ra rb) ∧ (t.FL = 1#8 ∨ t.FL = 2#8 ∨ t.FL = 4#8)) := by
  cases h with
  | compare a b =>
    refine .inr ⟨⟨_, _, rfl⟩, ?_⟩
    obtain ⟨-, e⟩ | ⟨-, e⟩ | ⟨-, e⟩ := compareFlags_cases (s.reg a) (s.reg b)
    · exact .inr (.inr e)
    · exact .inr (.inl e)
    · exact .inl e
  | jumpIfEq | jumpIfNe => exact .inl ⟨nofun, by simp⟩
  | _ => exact .inl ⟨nofun, rfl⟩

/-- The next pc is the sequential one, the same, or a byte (40_fetch_decode_execute.md R120). -/
theorem pc_cases (h : Effect s i t) :
    t.pc = s.pc + BitVec.ofNat 9 i.op.len ∨ t.pc = s.pc ∨ ∃ v : Byte, t.pc = v.toPc := by
  cases h with
  | halt => exact .inr (.inl rfl)
  | call | ret | jump => exact .inr (.inr ⟨_, rfl⟩)
  | jumpIfEq | jumpIfNe =>
    rw [State.branch]
    split
    · exact .inr (.inr ⟨_, rfl⟩)
    · exact .inl rfl
  | _ => exact .inl rfl

/-- Status, record, model arguments and output: what a commit says of them. -/
theorem commits (h : Effect s i t) : Commits i s t := by
  cases h with
  | printNum | printChar | store => exact ⟨rfl, rfl, rfl, some _, rfl, rfl⟩
  | jumpIfEq | jumpIfNe => exact ⟨by simp, by simp, by simp, none, by simp, rfl⟩
  | _ => exact ⟨rfl, rfl, rfl, none, (List.append_nil _).symm, rfl⟩

end Effect

/-! ### The invariant -/

/-- Settles O50, field by field. -/
theorem resetMeetsTheInvariant : Obligations.ResetMeetsTheInvariant :=
  ⟨rfl, rfl, by decide, by decide, rfl⟩

/-- A fault with a cause keeps the invariant: it writes the status and the record alone. -/
theorem State.Inv.enterFault {s : State} (h : s.Inv) {r : Raise} (hcause : r.cause ≠ .noFault) : (s.enterFault r).Inv :=
  ⟨h.memory, h.flags, h.pc, h.limit, by simpa [State.recordOk] using hcause⟩

/-- Every fault of a fetch has a cause. -/
theorem cause_of_fetch_error {s : State} {r : Raise} (h : fetch s = .error r) : r.cause ≠ .noFault := by
  obtain ⟨-, e⟩ | ⟨-, -, -, e⟩ | ⟨-, -, ⟨e', -, e⟩ | ⟨_, _, -, e⟩⟩ := fetch_cases s <;> rw [e] at h <;> cases h
  · nofun
  · nofun
  · cases e' <;> nofun

/-- Every fault of the stack has a cause. -/
theorem StackFault.cause_ne {s : State} {i : Instr} {cause : FaultCause} {info : PcWord}
    (h : StackFault s i cause info) : cause ≠ .noFault := by
  cases h <;> nofun

/-- The effect of an instruction that lies in memory keeps the invariant: the sequential pc is at most 256, and every other
target is a byte. -/
theorem State.Inv.effect {s t : State} {i : Instr} (h : s.Inv) (hrun : s.status = .run)
    (hend : s.pc.toNat + i.op.len ≤ 256) (heffect : Effect s i t) : t.Inv := by
  obtain ⟨hstatus, hrecord, hargs, -⟩ := heffect.commits
  have hzero : s.fault == .zero := by simpa [State.recordOk, hrun] using h.record
  refine ⟨heffect.mem_wf h.memory, ?_, ?_, hargs ▸ h.limit, ?_⟩
  · obtain ⟨-, e⟩ | ⟨-, e | e | e⟩ := heffect.FL_cases
    · exact e ▸ h.flags
    all_goals rw [e]; rfl
  · obtain e | e | ⟨v, e⟩ := heffect.pc_cases
    · rw [e, BitVec.toNat_add, BitVec.toNat_ofNat]; omega
    · exact e ▸ h.pc
    · rw [e, toPc_toNat]; have := v.isLt; omega
  · rw [State.recordOk, hstatus, hrecord, hrun]
    by_cases hhalt : i = .halt <;> simpa [hhalt] using hzero

/-- Settles O51: a fault keeps all but status and record, and an effect is that of an instruction that lies in memory. -/
theorem everyStepKeepsTheInvariant : Obligations.EveryStepKeepsTheInvariant := by
  intro s t hinv hstep
  obtain ⟨hrun, ⟨r, hfetch, rfl⟩ | ⟨i, hplaced, ⟨cause, info, hfault, rfl⟩ | heffect⟩⟩ := step_next_cases hstep
  · exact hinv.enterFault (cause_of_fetch_error hfetch)
  · exact hinv.enterFault hfault.cause_ne
  · obtain ⟨-, hend, -⟩ := hplaced
    obtain ⟨-, hlen, -⟩ := encode_shape i
    exact hinv.effect hrun (hlen ▸ hend) heffect

/-- Settles O52: the image is written from address 0 on, over the empty memory of reset. -/
theorem launchLoadsTheImage : Obligations.LaunchLoadsTheImage := by
  intro image
  refine ⟨fun hlong => if_neg (by omega), fun hfits => ⟨_, if_pos hfits, rfl, fun a => ?_, ?_⟩⟩
  · rw [Memory.read_writeFrom Memory.wf_nil (by omega), if_pos (Nat.zero_le _)]
    rfl
  · exact ⟨Memory.wf_writeFrom Memory.wf_nil 0 image, resetMeetsTheInvariant.flags,
      resetMeetsTheInvariant.pc, resetMeetsTheInvariant.limit, resetMeetsTheInvariant.record⟩

end Sys2Proof.Machine
end

section
/-! PROOFS. The frames: what an instruction leaves as it was (O38, O40, O41, O42, O44). -/

namespace Sys2Proof.Machine

open Sys2Proof.Claims

/-! ### Registers -/

/-- A register other than the one written is unchanged (10_state.md R22). -/
theorem State.setReg_reg_ne (s : State) {r q : Reg} (h : q ≠ r) (v : Byte) : (s.setReg r v).reg q = s.reg q := by
  rw [State.setReg_reg, if_neg h]

/-- The decrement of SP leaves every other register. -/
theorem State.decSp_reg_ne (s : State) {q : Reg} (h : q ≠ .sp) : s.decSp.reg q = s.reg q :=
  s.setReg_reg_ne h _

/-- POP's read leaves every register but its destination. -/
theorem State.popInto_reg_ne (s : State) {a q : Reg} (h : q ≠ a) : (s.popInto a).reg q = s.reg q :=
  s.setReg_reg_ne h _

/-- Registers whose operand bytes differ are not the same. -/
theorem ne_of_byte_beq {a r : Reg} (h : (a.byte == r.byte) = false) : r ≠ a := by
  rintro rfl
  simp at h

namespace Effect

variable {s t : State} {i : Instr}

/-- A register the table does not list for the instruction is unchanged (R23). -/
theorem reg_eq (h : Effect s i t) {r : Reg} (hr : writesReg i r = false) : t.reg r = s.reg r := by
  cases h with
  | loadImm a | mul a | add a => exact s.setReg_reg_ne (ne_of_byte_beq hr) _
  | push a | call a => exact s.decSp_reg_ne (beq_eq_false_iff_ne.1 hr)
  | ret => exact s.setReg_reg_ne (beq_eq_false_iff_ne.1 hr) _
  | pop a =>
    obtain ⟨ha, hsp⟩ := Bool.or_eq_false_iff.1 hr
    calc _ = (s.popInto a).reg r := State.setReg_reg_ne _ (beq_eq_false_iff_ne.1 hsp) _
      _ = s.reg r := s.popInto_reg_ne (ne_of_byte_beq ha)
  | jumpIfEq | jumpIfNe => simp [State.reg]
  | _ => rfl

/-- Memory is unchanged, or an instruction that stores wrote one byte to the cell below SP (20_memory.md R56). -/
theorem mem_cases (h : Effect s i t) :
    t.mem = s.mem ∨ (stores i = true ∧ s.reg .sp ≠ 0#8 ∧ ∃ v, t.mem = s.mem.write (s.reg .sp - 1#8) v) := by
  cases h with
  | push a hsp | call a _ hsp => exact .inr ⟨rfl, hsp, _, congrArg (s.mem.write · _) s.decSp_sp⟩
  | jumpIfEq | jumpIfNe => exact .inl (by simp)
  | _ => exact .inl rfl

/-- The sources of the next pc that an instruction's operand does not name (40_fetch_decode_execute.md R120). -/
theorem pc_of_pcSrc (h : Effect s i t) :
    (i.op.pcSrc = .seq → t.pc = s.pc + BitVec.ofNat 9 i.op.len) ∧ (i.op.pcSrc = .hold → t.pc = s.pc) ∧
      (i.op.pcSrc = .popped → t.pc = (s.mem.read (s.reg .sp)).toPc) := by
  cases h with
  | halt => exact ⟨nofun, fun _ => rfl, nofun⟩
  | ret => exact ⟨nofun, nofun, fun _ => rfl⟩
  | call | jump | jumpIfEq | jumpIfNe => exact ⟨nofun, nofun, nofun⟩
  | _ => exact ⟨fun _ => rfl, nofun, nofun⟩

end Effect

/-- Settles O40. -/
theorem onlyListedRegistersChange : Obligations.OnlyListedRegistersChange := by
  intro i s t r hexec hr
  obtain ⟨_, _, rfl⟩ | heffect := exec_next_effect hexec
  · rfl
  · exact heffect.reg_eq hr

/-- Settles O41: a fault leaves FL, and of the effects only COMPARE's writes it. -/
theorem onlyCompareChangesFlags : Obligations.OnlyCompareChangesFlags := by
  intro i s t hexec
  obtain ⟨_, _, rfl⟩ | heffect := exec_next_effect hexec
  · exact ⟨fun _ => rfl, fun _ _ _ _ hne => absurd rfl hne, fun _ _ => rfl⟩
  · have hnofault : t.status = .faulted → s.status = .run → t.FL = s.FL :=
      fun hfaulted hrun => absurd hfaulted (heffect.commits.status_ne_faulted hrun)
    obtain ⟨hother, e⟩ | ⟨⟨ra, rb, hi⟩, hFL⟩ := heffect.FL_cases
    · exact ⟨fun _ => e, fun ra rb hi => absurd hi (hother ra rb), hnofault⟩
    · exact ⟨fun hother => absurd hi (hother ra rb), fun _ _ _ _ _ => hFL, hnofault⟩

/-- Settles O42: memory is unchanged but for a store to the cell below SP, and sp_dec names that cell. -/
theorem onlyTheCellBelowTheStackIsStored : Obligations.OnlyTheCellBelowTheStackIsStored := by
  intro i s t hexec
  have hmem : t.mem = s.mem ∨
      (stores i = true ∧ s.reg .sp ≠ 0#8 ∧ ∃ v, t.mem = s.mem.write (s.reg .sp - 1#8) v) := by
    obtain ⟨_, _, rfl⟩ | heffect := exec_next_effect hexec
    · exact .inl rfl
    · exact heffect.mem_cases
  obtain e | ⟨hstores, hsp, v, e⟩ := hmem
  · rw [e]
    exact ⟨fun _ _ => rfl, fun _ _ _ _ => rfl, fun _ _ => rfl⟩
  · have hdec : spDec (s.reg .sp) = some (s.reg .sp - 1#8) := if_neg hsp
    rw [hstores, hdec, e]
    refine ⟨nofun, fun a ha b hb => ?_, nofun⟩
    cases ha
    exact Memory.read_write_ne v hb

/-- Settles O44: a fault writes the status and the record, a commit at most the status. -/
theorem statusRecordAndParametersFrame : Obligations.StatusRecordAndParametersFrame := by
  intro i s t hexec
  obtain ⟨cause, info, hcause, rfl⟩ | ⟨hstatus, hrecord, hargs, -⟩ := exec_next hexec
  · exact ⟨rfl, .inr (.inr ⟨rfl, rfl, rfl, hcause⟩)⟩
  · refine ⟨hargs, ?_⟩
    by_cases hhalt : i = .halt
    · exact .inr (.inl ⟨hhalt, hstatus.trans (if_pos hhalt), hrecord⟩)
    · exact .inl ⟨hstatus.trans (if_neg hhalt), hrecord⟩

/-! ### The next pc -/

/-- Where a branch goes. -/
theorem State.branch_pc (s : State) (taken : Bool) (a : Reg) :
    (s.branch taken a).pc = if taken = true then (s.reg a).toPc else s.pc + 2#9 := by
  cases taken <;> rfl

/-- A CALL that does not fault: its return address fits in a byte, SP is not 0, and it pushes and jumps
(43_stack.md R213, R214). -/
theorem exec_call_next {s t : State} {a : Reg} (h : exec (.call a.byte) s = .next t) (hnofault : t.status ≠ .faulted) :
    returnAddress s ≤ 255 ∧ s.reg .sp ≠ 0#8 ∧
      t = (s.decSp.memWrite (s.decSp.reg .sp) (BitVec.ofNat 8 (returnAddress s))).jump (s.decSp.reg a) := by
  have hcall : execCall a.byte s = .next t := h
  obtain ⟨-, e⟩ | ⟨-, -, e⟩ | ⟨hfits, hsp, e⟩ := execCall_cases a s <;> rw [e] at hcall <;> cases hcall
  · exact absurd rfl hnofault
  · exact absurd rfl hnofault
  · exact ⟨hfits, hsp, rfl⟩

/-- Settles O38: the sources without a register from the effect, those with one from the instruction that names it. -/
theorem nextPcFollowsThePcSource : Obligations.NextPcFollowsThePcSource := by
  intro i s t _ hexec hnofault
  obtain ⟨_, _, rfl⟩ | heffect := exec_next_effect hexec
  · exact absurd rfl hnofault
  obtain ⟨hseq, hhold, hpopped⟩ := heffect.pc_of_pcSrc
  refine ⟨hseq, hhold, hpopped, ?_, ?_, ?_⟩
  · rintro a (rfl | rfl)
    · rw [exec_jump_byte] at hexec; cases hexec; rfl
    · obtain ⟨-, -, rfl⟩ := exec_call_next hexec hnofault
      rfl
  · rintro a rfl
    rw [exec_jumpIfEq_byte] at hexec; cases hexec
    exact s.branch_pc _ a
  · rintro a rfl
    rw [exec_jumpIfNe_byte] at hexec; cases hexec
    refine (s.branch_pc _ a).trans ?_
    change _ = if s.flagE = true then _ else _
    cases s.flagE <;> rfl

end Sys2Proof.Machine
end

section
/-! PROOFS. The fetch by the cells at pc, and the step (O8, O9, O10, O11, O13, O14, O15, O16, O45). -/

namespace Sys2Proof.Claims

open Sys2Proof.Machine

/-! ### Where nothing stops the opcode fetch -/

theorem OpcodeFetched.run {s : State} (h : OpcodeFetched s) : s.status = .run := h.1

theorem OpcodeFetched.pc_lt {s : State} (h : OpcodeFetched s) : s.pc.toNat < 256 := h.2.1

/-- The strict window does not end past memory (40_fetch_decode_execute.md R104). -/
theorem OpcodeFetched.strict_in_memory {s : State} (h : OpcodeFetched s) :
    ¬ (s.cfg.strictFetchWindow = true ∧ 256 ≤ s.pc.toNat + 2) := by
  rintro ⟨hon, hend⟩
  obtain ⟨-, -, hstrict⟩ := h
  have := hstrict hon
  omega

end Sys2Proof.Claims

namespace Sys2Proof.Machine

open Sys2Proof.Claims

/-! ### The operand bytes at pc -/

/-- Byte 1 of an instruction of the given operation at pc; 0 where it has none (40_fetch_decode_execute.md R102, R126). -/
def State.operand1 (s : State) (op : Op) : Byte := if 2 ≤ op.len then cell s 1 else 0#8

/-- Byte 2, likewise. -/
def State.operand2 (s : State) (op : Op) : Byte := if op.len = 3 then cell s 2 else 0#8

/-- `usesRaOf` on an operation's opcode byte is the decoder's uses_ra (30_encoding.md R84). -/
@[simp] theorem usesRaOf_opcode (op : Op) : usesRaOf op.opcode = op.usesRa := by
  cases op <;> rfl

/-- `usesRbOf` on an operation's opcode byte is the decoder's uses_rb (R84). -/
@[simp] theorem usesRbOf_opcode (op : Op) : usesRbOf op.opcode = op.usesRb := by
  cases op <;> rfl

/-- A register field in byte 1 is the cell after pc. -/
theorem State.operand1_of_usesRa (s : State) {op : Op} (h : op.usesRa = true) : s.operand1 op = cell s 1 := by
  have hlen : 2 ≤ op.len := by revert h; cases op <;> decide
  exact if_pos hlen

/-- A register field in byte 2 is the second cell after pc. -/
theorem State.operand2_of_usesRb (s : State) {op : Op} (h : op.usesRb = true) : s.operand2 op = cell s 2 := by
  have hlen : op.len = 3 := by revert h; cases op <;> decide
  exact if_pos hlen

/-- Of an instruction that ends in memory, the operand bytes taken are those at pc. -/
theorem takeOperands_at_pc {s : State} {op : Op} (hend : s.pc.toNat + op.len ≤ 256) :
    ∃ rest, op.takeOperands (s.mem.readFrom (s.pc.toNat + 1) 2) = some (s.operand1 op, s.operand2 op, rest) := by
  obtain ⟨hlow, hhigh⟩ := len_bounds op
  obtain hlen | hlen | hlen : op.len = 1 ∨ op.len = 2 ∨ op.len = 3 := by omega
  · exact ⟨s.mem.readFrom (s.pc.toNat + 1) 2, by simp [Op.takeOperands, State.operand1, State.operand2, hlen]⟩
  · have h1 : s.pc.toNat + 1 < 256 := by omega
    exact ⟨s.mem.readFrom (s.pc.toNat + 1 + 1) 1, by
      simp [Op.takeOperands, State.operand1, State.operand2, hlen, Memory.readFrom, h1, cell]⟩
  · have h1 : s.pc.toNat + 1 < 256 := by omega
    have h2 : s.pc.toNat + 1 + 1 < 256 := by omega
    exact ⟨[], by simp [Op.takeOperands, State.operand1, State.operand2, hlen, Memory.readFrom, h1, h2, cell]⟩

/-! ### Everything a fetch can answer, by the cells at pc -/

/-- The fetch by the cells at pc, in R126's order: the two range checks, the opcode, the operand range, the register
fields, and the instruction. -/
inductive Fetches (s : State) : Except Raise Instr → Prop where
  | pcRange (hpc : 256 ≤ s.pc.toNat) : Fetches s (.error { cause := .fetchRange, opcode := 0#8, info := s.pc })
  | strictRange (hpc : s.pc.toNat < 256) (hstrict : s.cfg.strictFetchWindow = true) (hend : 256 ≤ s.pc.toNat + 2) :
      Fetches s (.error { cause := .fetchRange, opcode := 0#8, info := 256#9 })
  | unknownOpcode (hfetched : OpcodeFetched s) (hop : cell s 0 ∉ opcodes) :
      Fetches s (.error { cause := .unknownOpcode, opcode := cell s 0, info := 0#9 })
  | operandRange (op : Op) (hfetched : OpcodeFetched s) (hop : cell s 0 = op.opcode) (hend : 256 < s.pc.toNat + op.len) :
      Fetches s (.error { cause := .fetchRange, opcode := op.opcode, info := 256#9 })
  | badRegister (op : Op) (f : Byte) (hfetched : OpcodeFetched s) (hop : cell s 0 = op.opcode)
      (hend : s.pc.toNat + op.len ≤ 256) (hfields : op.badField? (s.operand1 op) (s.operand2 op) = some f) :
      Fetches s (.error { cause := .badRegister, opcode := op.opcode, info := f.toPc })
  | instr (op : Op) (hfetched : OpcodeFetched s) (hop : cell s 0 = op.opcode) (hend : s.pc.toNat + op.len ≤ 256)
      (hfields : op.badField? (s.operand1 op) (s.operand2 op) = none) :
      Fetches s (.ok (op.build (s.operand1 op) (s.operand2 op)))

/-- The decoder's part: what it answers on the window, and so the fetch, once the opcode can be fetched. -/
theorem fetches_of_opcodeFetched {s : State} (h : OpcodeFetched s) : Fetches s (fetch s) := by
  have ⟨_, hpc, hstrict⟩ := h
  by_cases hop : cell s 0 ∈ opcodes
  · obtain ⟨op, hop⟩ := mem_opcodes_iff.1 hop
    have hwindow := window_eq_cons hpc
    rw [← hop] at hwindow
    obtain hend | hend := Nat.lt_or_ge 256 (s.pc.toNat + op.len)
    · have hshort : (s.mem.readFrom (s.pc.toNat + 1) 2).length + 1 < op.len := by
        rw [Memory.length_readFrom]; have := (len_bounds op).2; omega
      have hdecode : decode s.window = .error (.missingOperand op.opcode) := by
        rw [hwindow, decode_missingOperand hshort]
      exact fetch_of_decode_error hpc hstrict hdecode ▸ .operandRange op h hop.symm hend
    · obtain ⟨rest, htake⟩ := takeOperands_at_pc hend
      cases hfields : op.badField? (s.operand1 op) (s.operand2 op) with
      | some f =>
        have hdecode : decode s.window = .error (.badRegister op.opcode f) := by
          simp only [hwindow, decode, ofByte_opcode, htake, hfields]
        exact fetch_of_decode_error hpc hstrict hdecode ▸ .badRegister op f h hop.symm hend hfields
      | none =>
        have hdecode : decode s.window = .ok (op.build (s.operand1 op) (s.operand2 op), rest) := by
          simp only [hwindow, decode, ofByte_opcode, htake, hfields]
        exact fetch_of_decode_ok h hdecode ▸ .instr op h hop.symm hend hfields
  · have hdecode : decode s.window = .error (.unknownOpcode (cell s 0)) := by
      rw [window_eq_cons hpc, decode_unknownOpcode hop]
    exact fetch_of_decode_error hpc hstrict hdecode ▸ .unknownOpcode h hop

/-- Every fetch in status RUN is one of these. -/
theorem fetches {s : State} (hrun : s.status = .run) : Fetches s (fetch s) := by
  obtain ⟨hpc, e⟩ | ⟨hpc, hstrict, hend, e⟩ | ⟨hpc, hstrict, -⟩ := fetch_cases s
  · exact e ▸ .pcRange hpc
  · exact e ▸ .strictRange hpc hstrict hend
  · exact fetches_of_opcodeFetched ⟨hrun, hpc, hstrict⟩

/-! ### The step as the pseudocode -/

/-- The pseudocode, once the opcode can be fetched and is an operation's (40_fetch_decode_execute.md R126). -/
theorem stepPseudocode_opcode {s : State} {op : Op} (h : OpcodeFetched s) (hop : cell s 0 = op.opcode) :
    stepPseudocode s =
      if 256 < s.pc.toNat + op.len then .next (faulted s .fetchRange op.opcode 256#9)
      else if op.usesRa = true ∧ 8 ≤ (s.operand1 op).toNat then
        .next (faulted s .badRegister op.opcode (s.operand1 op).toPc)
      else if op.usesRb = true ∧ 8 ≤ (s.operand2 op).toNat then
        .next (faulted s .badRegister op.opcode (s.operand2 op).toPc)
      else exec (op.build (s.operand1 op) (s.operand2 op)) s := by
  have hend : s.pc.toNat + op.len - 1 ≥ 256 ↔ 256 < s.pc.toNat + op.len := by
    have := (len_bounds op).1; omega
  rw [stepPseudocode, if_neg (Nat.not_le.2 h.pc_lt), if_neg h.strict_in_memory]
  simp only [hop, mem_opcodes_iff.2 ⟨op, rfl⟩, not_true, if_false, lenOf_opcode, usesRaOf_opcode, usesRbOf_opcode,
    ruleOf_opcode]
  exact if_congr hend rfl rfl

/-- Settles O9, by what the fetch answers. -/
theorem stepIsThePseudocode : Obligations.StepIsThePseudocode := by
  intro s hrun
  have h := fetches hrun
  obtain ⟨r, hfetch, e⟩ | ⟨i, hfetch, e⟩ := step_run hrun <;> rw [e] <;> rw [hfetch] at h
  · cases h with
    | pcRange hpc => exact (if_pos hpc).symm
    | strictRange hpc hstrict hend =>
      rw [stepPseudocode, if_neg (by omega), if_pos ⟨hstrict, hend⟩]
      rfl
    | unknownOpcode hfetched hop =>
      rw [stepPseudocode, if_neg (Nat.not_le.2 hfetched.pc_lt), if_neg hfetched.strict_in_memory]
      exact (if_pos hop).symm
    | operandRange op hfetched hop hend =>
      rw [stepPseudocode_opcode hfetched hop, if_pos hend]
      rfl
    | badRegister op f hfetched hop hend hfields =>
      rw [stepPseudocode_opcode hfetched hop, if_neg (Nat.not_lt.2 hend)]
      obtain ⟨hra, hbad, rfl⟩ | ⟨hrb, hgood, hbad, rfl⟩ := badField_some hfields
      · rw [if_pos ⟨hra, hbad⟩]; rfl
      · rw [if_neg (fun h => Nat.not_le.2 hgood h.2), if_pos ⟨hrb, hbad⟩]; rfl
  · cases h with
    | instr op hfetched hop hend hfields =>
      rw [stepPseudocode_opcode hfetched hop, if_neg (Nat.not_lt.2 hend)]
      rw [if_neg fun hbad => badField_ne_none (.inl hbad) hfields,
        if_neg fun hbad => badField_ne_none (.inr hbad) hfields]

/-- Settles O13, line by line of the pseudocode. -/
theorem fetchRangeFaults : Obligations.FetchRangeFaults := by
  refine ⟨fun s hrun hpc => (stepIsThePseudocode s hrun).trans (if_pos hpc), fun s hrun hpc hstrict hend =>
    step_strictPastEnd s hrun hpc hstrict (by omega), fun s hfetched hop hend => ?_⟩
  obtain ⟨op, hop⟩ := mem_opcodes_iff.1 hop
  rw [← hop, lenOf_opcode] at hend
  rw [stepIsThePseudocode s hfetched.run, stepPseudocode_opcode hfetched hop.symm, if_pos hend, hop]

/-- Settles O14: the pseudocode's two lines on register fields. -/
theorem badRegisterFaults : Obligations.BadRegisterFaults := by
  intro s hfetched hop hend
  obtain ⟨op, hop⟩ := mem_opcodes_iff.1 hop
  rw [← hop, lenOf_opcode] at hend
  rw [stepIsThePseudocode s hfetched.run, stepPseudocode_opcode hfetched hop.symm, if_neg (Nat.not_lt.2 hend), ← hop,
    usesRaOf_opcode, usesRbOf_opcode]
  refine ⟨fun hra hbad => ?_, fun hrb hgood hbad => ?_⟩
  · rw [s.operand1_of_usesRa hra, if_pos ⟨hra, hbad⟩]
  · rw [s.operand1_of_usesRa (usesRa_of_usesRb hrb), s.operand2_of_usesRb hrb,
      if_neg (fun h => Nat.not_le.2 hgood h.2), if_pos ⟨hrb, hbad⟩]

/-! ### The step -/

/-- Settles O8. -/
theorem stepRunsTheDecodedInstruction : Obligations.StepRunsTheDecodedInstruction :=
  fun _ _ hwf hplaced => step_of_placed hwf hplaced

/-- Settles O11. -/
theorem everyInstructionAnswersANextState : Obligations.EveryInstructionAnswersANextState :=
  exec_answers

/-- Settles O10, status by status. -/
theorem stepExistsExactlyInRun : Obligations.StepExistsExactlyInRun := by
  intro s
  cases h : s.status with
  | run =>
    obtain ⟨t, ht⟩ := step_answers h
    simp [ht]
  | halted => simp [step, h]
  | faulted => simp [step, h]

/-- Settles O15: a step that ends in FAULTED took a fault, since no effect leaves RUN for FAULTED. -/
theorem faultsArePrecise : Obligations.FaultsArePrecise := by
  intro s t hstep hfaulted
  obtain ⟨hrun, ⟨r, hfetch, rfl⟩ | ⟨i, -, ⟨cause, info, hfault, rfl⟩ | heffect⟩⟩ := step_next_cases hstep
  · exact ⟨rfl, rfl, cause_of_fetch_error hfetch⟩
  · exact ⟨rfl, rfl, hfault.cause_ne⟩
  · exact absurd hfaulted (heffect.commits.status_ne_faulted hrun)

/-- Settles O45: a HALT at pc runs as HALT, and no other instruction's effect and no fault ends in HALTED. -/
theorem onlyHaltHalts : Obligations.OnlyHaltHalts := by
  intro s t hstep
  constructor
  · intro hhalted
    obtain ⟨hrun, ⟨r, -, rfl⟩ | ⟨i, hplaced, ⟨_, _, -, rfl⟩ | heffect⟩⟩ := step_next_cases hstep
    · cases hhalted
    · cases hhalted
    · obtain rfl : i = .halt := by
        by_contra hne
        rw [heffect.commits.status, if_neg hne, hrun] at hhalted
        cases hhalted
      exact ⟨hplaced.1, cell_zero_of_placed hplaced⟩
  · rintro ⟨hfetched, hop⟩
    have hplaced : Placed s (encode .halt) := by
      refine ⟨hfetched, hfetched.pc_lt, fun k hk => ?_⟩
      obtain rfl : k = 0 := by simpa [encode] using hk
      exact hop
    have hhalt : step s = .next s.halt := step_of_placed rfl hplaced
    rw [hhalt] at hstep
    cases hstep
    rfl

/-! ### Each fault and its condition -/

/-- The condition of a fetch's fault in R260's table. -/
theorem fetch_fault_condition {s : State} {r : Raise} (h : Fetches s (.error r)) :
    (r.cause = .unknownOpcode ∧ cell s 0 ∉ opcodes ∧ r.opcode = cell s 0 ∧ r.info = 0#9) ∨
    (r.cause = .fetchRange ∧
      ((256 ≤ s.pc.toNat ∧ r.opcode = 0#8 ∧ r.info = s.pc) ∨
        (s.pc.toNat < 256 ∧ s.cfg.strictFetchWindow = true ∧ 256 ≤ s.pc.toNat + 2 ∧ r.opcode = 0#8 ∧ r.info = 256#9) ∨
        (OpcodeFetched s ∧ cell s 0 ∈ opcodes ∧ 256 < s.pc.toNat + lenOf (cell s 0) ∧ r.opcode = cell s 0 ∧
          r.info = 256#9))) ∨
    (r.cause = .badRegister ∧ r.opcode = cell s 0 ∧
      ((usesRaOf (cell s 0) = true ∧ 8 ≤ (cell s 1).toNat ∧ r.info = (cell s 1).toPc) ∨
        (usesRbOf (cell s 0) = true ∧ 8 ≤ (cell s 2).toNat ∧ r.info = (cell s 2).toPc))) := by
  cases h with
  | pcRange hpc => exact .inr (.inl ⟨rfl, .inl ⟨hpc, rfl, rfl⟩⟩)
  | strictRange hpc hstrict hend => exact .inr (.inl ⟨rfl, .inr (.inl ⟨hpc, hstrict, hend, rfl, rfl⟩)⟩)
  | unknownOpcode _ hop => exact .inl ⟨rfl, hop, rfl, rfl⟩
  | operandRange op hfetched hop hend =>
    refine .inr (.inl ⟨rfl, .inr (.inr ⟨hfetched, ?_, ?_, hop.symm, rfl⟩)⟩)
    · exact mem_opcodes_iff.2 ⟨op, hop.symm⟩
    · rwa [hop, lenOf_opcode]
  | badRegister op f _ hop _ hfields =>
    refine .inr (.inr ⟨rfl, hop.symm, ?_⟩)
    rw [hop, usesRaOf_opcode, usesRbOf_opcode]
    obtain ⟨hra, hbad, rfl⟩ | ⟨hrb, -, hbad, rfl⟩ := badField_some hfields
    · rw [s.operand1_of_usesRa hra] at hbad ⊢
      exact .inl ⟨hra, hbad, rfl⟩
    · rw [s.operand2_of_usesRb hrb] at hbad ⊢
      exact .inr ⟨hrb, hbad, rfl⟩

/-- Settles O16: the fetch's faults by the cells at pc, the stack's by the instruction placed there. -/
theorem everyFaultHasItsCondition : Obligations.EveryFaultHasItsCondition := by
  intro s t hstep hfaulted
  obtain ⟨hrun, ⟨r, hfetch, rfl⟩ | ⟨i, hplaced, ⟨cause, info, hfault, rfl⟩ | heffect⟩⟩ := step_next_cases hstep
  · have hr : Fetches s (.error r) := hfetch ▸ fetches hrun
    obtain ⟨hc, h⟩ | ⟨hc, h⟩ | ⟨hc, h⟩ := fetch_fault_condition hr <;> rw [State.enterFault_fault, hc] <;> exact h
  · have hop := cell_zero_of_placed hplaced
    cases hfault with
    | pushLow a hsp => exact ⟨.inl hop, hsp, hop.symm, rfl⟩
    | callLow a hsp => exact ⟨.inr hop, hsp, hop.symm, rfl⟩
    | popHigh a hsp => exact ⟨hop.symm, .inl ⟨.inl hop, hsp, rfl⟩⟩
    | retHigh hsp => exact ⟨hop.symm, .inl ⟨.inr hop, hsp, rfl⟩⟩
    | popPoppedHigh hpop =>
      obtain ⟨-, -, hcell⟩ := hplaced
      exact ⟨hop.symm, .inr ⟨hop, hcell 1 (by decide), hpop, rfl⟩⟩
    | callRange a hlong =>
      obtain ⟨⟨-, hpc, -⟩, -, -⟩ := hplaced
      refine ⟨hop, hlong, hop.symm, ?_⟩
      rw [State.enterFault_fault, BitVec.toNat_ofNat, returnAddress]
      omega
  · exact absurd hfaulted (heffect.commits.status_ne_faulted hrun)

end Sys2Proof.Machine
end

section
/-! PROOFS. Each instruction whole: its bytes, its effect and its faults (O17 to O25, O27, O29, O30, O34 to O36). -/

namespace Sys2Proof.Machine

open Sys2Proof.Claims

/-! ### The BAD_REGISTER lines -/

/-- BAD_REGISTER on byte 1 (40_fetch_decode_execute.md R111). -/
theorem exec_bad_ra (op : Op) (hra : op.usesRa = true) {ra : Byte} (h : 8 ≤ ra.toNat) (b2 : Byte) (s : State) :
    exec (op.build ra b2) s = .next (faulted s .badRegister op.opcode ra.toPc) :=
  exec_build_bad (badField_ra hra h b2) s

/-- BAD_REGISTER on byte 2, after a byte 1 that names a register (R111). -/
theorem exec_bad_rb (op : Op) (hrb : op.usesRb = true) (a : Reg) {rb : Byte} (h : 8 ≤ rb.toNat) (s : State) :
    exec (op.build a.byte rb) s = .next (faulted s .badRegister op.opcode rb.toPc) :=
  exec_build_bad (badField_rb hrb (by simp) h) s

/-! ### Data and I/O -/

/-- Settles O18: HALT sets the status, in which the model's step stops. -/
theorem haltStopsTheMachine : Obligations.HaltStopsTheMachine := by
  refine ⟨rfl, fun _ => rfl, fun s t h => ?_, step_strictPastEnd⟩
  cases h
  rfl

/-- Settles O19. -/
theorem loadImmWritesItsImmediate : Obligations.LoadImmWritesItsImmediate :=
  ⟨fun _ _ => rfl, fun a imm s => exec_loadImm_byte a imm s,
    fun _ imm s hra => exec_bad_ra .loadImm rfl hra imm s, step_operandsPastEnd .loadImm (by decide)⟩

/-- Settles O20. -/
theorem printNumEmitsTheRegister : Obligations.PrintNumEmitsTheRegister :=
  ⟨fun _ => rfl, fun a s => exec_printNum_byte a s, fun _ s hra => exec_bad_ra .printNum rfl hra 0#8 s,
    step_operandsPastEnd .printNum (by decide)⟩

/-- Settles O21. -/
theorem printCharEmitsTheRegister : Obligations.PrintCharEmitsTheRegister :=
  ⟨fun _ => rfl, fun a s => exec_printChar_byte a s, fun _ s hra => exec_bad_ra .printChar rfl hra 0#8 s,
    step_operandsPastEnd .printChar (by decide)⟩

/-- Settles O22. -/
theorem storePrintsAndDoesNotStore : Obligations.StorePrintsAndDoesNotStore :=
  ⟨fun _ _ => rfl, fun a x s => exec_store_byte a x s, fun _ x s hra => exec_bad_ra .store rfl hra x s,
    step_operandsPastEnd .store (by decide)⟩

/-! ### Arithmetic -/

/-- A byte takes a number modulo 256. -/
theorem ofNat_mod_256 (n : Nat) : BitVec.ofNat 8 (n % 256) = BitVec.ofNat 8 n := by
  apply BitVec.eq_of_toNat_eq
  simp

/-- Settles O23. -/
theorem addWritesTheSumModulo256 : Obligations.AddWritesTheSumModulo256 := by
  refine ⟨fun _ _ => rfl, fun a b s => ?_, fun _ rb s hra => exec_bad_ra .add rfl hra rb s,
    fun a _ s hrb => exec_bad_rb .add rfl a hrb s, step_operandsPastEnd .add (by decide)⟩
  rw [ofNat_mod_256]
  exact exec_add_byte a b s

/-- Settles O24. -/
theorem mulWritesTheProductModulo256 : Obligations.MulWritesTheProductModulo256 := by
  refine ⟨fun _ _ => rfl, fun a b s => ?_, fun _ rb s hra => exec_bad_ra .mul rfl hra rb s,
    fun a _ s hrb => exec_bad_rb .mul rfl a hrb s, step_operandsPastEnd .mul (by decide)⟩
  rw [ofNat_mod_256]
  exact exec_mul_byte a b s

/-- Settles O25. -/
theorem compareSetsOneFlagByUnsignedOrder : Obligations.CompareSetsOneFlagByUnsignedOrder :=
  ⟨fun _ _ => rfl, fun a b s => exec_compare_byte a b s, fun _ rb s hra => exec_bad_ra .compare rfl hra rb s,
    fun a _ s hrb => exec_bad_rb .compare rfl a hrb s, step_operandsPastEnd .compare (by decide)⟩

/-- Settles O17: registers that exist reach the alu, which knows no code 3. -/
theorem unsupportedAluOpFaults : Obligations.UnsupportedAluOpFaults := by
  refine ⟨fun op a b s => ?_, fun op => ?_⟩
  · obtain ⟨-, -, -, hnone⟩ := alu_cases (s.reg a) (s.reg b)
    simp only [executeAlu, withRegs_byte, hnone]
    rfl
  · cases op <;> decide

/-! ### Stack -/

/-- A register read after the decrement of SP (40_fetch_decode_execute.md R124). -/
theorem State.decSp_reg (s : State) (a : Reg) :
    s.decSp.reg a = if a = .sp then s.reg .sp - 1#8 else s.reg a :=
  s.setReg_reg _ a _

/-- PUSH from an SP other than 0 (43_stack.md R207). -/
theorem exec_push_ok {a : Reg} {s : State} (h : s.reg .sp ≠ 0#8) :
    exec (.push a.byte) s = .next ((s.decSp.memWrite (s.decSp.reg .sp) (s.decSp.reg a)).advance 2) := by
  obtain ⟨h0, -⟩ | ⟨-, e⟩ := execPush_cases a s
  · exact absurd h0 h
  · exact e

/-- PUSH from SP = 0 (R201). -/
theorem exec_push_low {a : Reg} {s : State} (h : s.reg .sp = 0#8) :
    exec (.push a.byte) s = takeFault .push .stackLow 0#9 s := by
  obtain ⟨-, e⟩ | ⟨h0, -⟩ := execPush_cases a s
  · exact e
  · exact absurd h h0

/-- Settles O27. -/
theorem pushStoresBelowTheStack : Obligations.PushStoresBelowTheStack := by
  refine ⟨fun _ => rfl, fun a s hsp => ?_, fun a s hsp => exec_push_low hsp,
    fun _ s hra => exec_bad_ra .push rfl hra 0#8 s, step_operandsPastEnd .push (by decide)⟩
  refine (exec_push_ok hsp).trans ?_
  rw [State.decSp_sp, State.decSp_reg]
  rfl

/-- Settles O29, by the three ways a CALL ends. -/
theorem callPushesTheReturnAddressAndJumps : Obligations.CallPushesTheReturnAddressAndJumps := by
  refine ⟨fun _ => rfl, fun a s hpc hsp => ?_, fun a s hpc => ?_, fun a s hpc hsp => ?_,
    fun _ s hra => exec_bad_ra .call rfl hra 0#8 s, step_operandsPastEnd .call (by decide)⟩
  · obtain ⟨hlong, -⟩ | ⟨-, hlow, -⟩ | ⟨-, -, e⟩ := execCall_cases a s
    · exact absurd hlong (Nat.not_lt.2 hpc)
    · exact absurd hlow hsp
    · refine Eq.trans e ?_
      rw [State.decSp_sp, State.decSp_reg]
      rfl
  · have hlong : returnAddress s = 256 := congrArg (· + 2) hpc
    obtain ⟨-, e⟩ | ⟨hfits, -⟩ | ⟨hfits, -⟩ := execCall_cases a s
    · refine Eq.trans e ?_
      rw [hlong]
      rfl
    · omega
    · omega
  · obtain ⟨hlong, -⟩ | ⟨-, -, e⟩ | ⟨-, hok, -⟩ := execCall_cases a s
    · exact absurd hlong (Nat.not_lt.2 hpc)
    · exact e
    · exact absurd hsp hok

/-- Settles O30. -/
theorem retPopsIntoThePc : Obligations.RetPopsIntoThePc := by
  refine ⟨rfl, fun s hsp => ?_, fun s hsp => ?_, step_strictPastEnd⟩
  · obtain ⟨hhigh, -⟩ | ⟨-, e⟩ := execRet_cases s
    · exact absurd hsp (Nat.not_lt.2 hhigh)
    · exact e
  · obtain ⟨-, e⟩ | ⟨hlow, -⟩ := execRet_cases s
    · exact e
    · exact absurd hlow (Nat.not_lt.2 hsp)

/-! ### Control transfer -/

/-- Settles O34. -/
theorem jumpGoesToTheRegister : Obligations.JumpGoesToTheRegister :=
  ⟨fun _ => rfl, fun a s => exec_jump_byte a s, fun _ s hra => exec_bad_ra .jump rfl hra 0#8 s,
    step_operandsPastEnd .jump (by decide)⟩

/-- A branch changes the pc alone. -/
theorem State.branch_eq (s : State) (taken : Bool) (a : Reg) :
    s.branch taken a = { s with pc := if taken = true then (s.reg a).toPc else s.pc + 2#9 } := by
  cases taken <;> rfl

/-- Settles O35. -/
theorem jumpIfEqFollowsTheEqualFlag : Obligations.JumpIfEqFollowsTheEqualFlag := by
  refine ⟨fun _ => rfl, fun a s => ?_, fun _ s hra => exec_bad_ra .jumpIfEq rfl hra 0#8 s,
    step_operandsPastEnd .jumpIfEq (by decide)⟩
  rw [exec_jumpIfEq_byte, State.branch_eq]
  rfl

/-- Settles O36. -/
theorem jumpIfNeFollowsTheClearEqualFlag : Obligations.JumpIfNeFollowsTheClearEqualFlag := by
  refine ⟨fun _ => rfl, fun a s => ?_, fun _ s hra => exec_bad_ra .jumpIfNe rfl hra 0#8 s,
    step_operandsPastEnd .jumpIfNe (by decide)⟩
  rw [exec_jumpIfNe_byte, State.branch_eq]
  simp only [Bool.not_eq_true']
  rfl

end Sys2Proof.Machine
end

section
/-! PROOFS. The laws of the stack (O32, O33) and a PUSH seen by the fetch (O48). -/

namespace Sys2Proof.Machine

open Sys2Proof.Claims

/-- States whose registers read the same have the same register file. -/
theorem State.x_eq_of_reg_eq {s t : State} (h : ∀ r, s.reg r = t.reg r) : s.x = t.x :=
  Vector.ext fun i hi => h ⟨i, hi⟩

/-! ### PUSH -/

/-- The state after a PUSH that does not fault (43_stack.md R207). -/
def State.afterPush (s : State) (a : Reg) : State :=
  (s.decSp.memWrite (s.decSp.reg .sp) (s.decSp.reg a)).advance 2

/-- A PUSH writes SP alone. -/
@[simp] theorem State.afterPush_reg (s : State) (a q : Reg) : (s.afterPush a).reg q = s.decSp.reg q := rfl

/-- The cell SP then names holds the register's value, read after the decrement (R207, R208). -/
theorem State.afterPush_top {s : State} (hwf : s.mem.wf = true) (a : Reg) :
    (s.afterPush a).mem.read ((s.afterPush a).reg .sp) = s.decSp.reg a :=
  (Memory.read_write hwf ..).trans (if_pos rfl)

/-- Every cell but the one below SP is as before. -/
theorem State.afterPush_read_ne (s : State) (a : Reg) {b : Byte} (h : b ≠ s.reg .sp - 1#8) :
    (s.afterPush a).mem.read b = s.mem.read b :=
  Memory.read_write_ne _ (by rwa [State.decSp_sp])

/-- A PUSH that does not fault had an SP other than 0 and leaves this state. -/
theorem exec_push_next {s t : State} {a : Reg} (h : exec (.push a.byte) s = .next t) (hnofault : t.status ≠ .faulted) :
    s.reg .sp ≠ 0#8 ∧ t = s.afterPush a := by
  have hpush : execPush a.byte s = .next t := h
  obtain ⟨-, e⟩ | ⟨hsp, e⟩ := execPush_cases a s <;> rw [e] at hpush <;> cases hpush
  · exact absurd rfl hnofault
  · exact ⟨hsp, rfl⟩

/-- SP from another value than 0 is one above the decremented SP, as a number. -/
theorem decSp_sp_toNat {s : State} (h : s.reg .sp ≠ 0#8) : (s.decSp.reg .sp).toNat + 1 = (s.reg .sp).toNat := by
  have hlt := (s.reg .sp).isLt
  have hpos : (s.reg .sp).toNat ≠ 0 := fun h0 => h (BitVec.eq_of_toNat_eq h0)
  rw [State.decSp_sp, BitVec.toNat_sub, BitVec.toNat_ofNat]
  omega

/-! ### PUSH, then POP -/

/-- The POP of the register just pushed reads back the SP it pops at, R7 itself included. -/
theorem State.afterPush_popInto_sp {s : State} (hwf : s.mem.wf = true) (a : Reg) :
    ((s.afterPush a).popInto a).reg .sp = s.decSp.reg .sp := by
  by_cases ha : a = .sp
  · subst ha
    rw [State.popInto_sp_same, State.afterPush_top hwf]
  · rw [State.popInto_sp_of_ne _ ha, State.afterPush_reg]

/-- A PUSH and the POP's read of the same register leave every register but SP as it was. -/
theorem State.afterPush_popInto_reg {s : State} (hwf : s.mem.wf = true) (a : Reg) {q : Reg} (hq : q ≠ .sp) :
    ((s.afterPush a).popInto a).reg q = s.reg q := by
  by_cases ha : q = a
  · subst ha
    rw [State.popInto, State.setReg_reg, if_pos rfl, State.afterPush_top hwf, State.decSp_reg_ne _ hq]
  · rw [State.popInto_reg_ne _ ha, State.afterPush_reg, State.decSp_reg_ne _ hq]

/-- Settles O32: POP finds SP and the pushed byte as PUSH left them, and its increment undoes the decrement. -/
theorem pushThenPopRestoresTheRegisters : Obligations.PushThenPopRestoresTheRegisters := by
  intro s a hwf hpos hlimit
  have hsp : s.reg .sp ≠ 0#8 := fun h => Nat.ne_of_gt hpos (congrArg BitVec.toNat h)
  have hbelow : (s.decSp.reg .sp).toNat < s.cfg.stackLimit.toNat :=
    Nat.lt_of_succ_le (Nat.le_trans (Nat.le_of_eq (decSp_sp_toNat hsp)) hlimit)
  have hincr := State.afterPush_popInto_sp hwf a
  refine ⟨s.afterPush a, _, exec_push_ok hsp,
    execPop_ok (s := s.afterPush a) hbelow (by rw [hincr]; exact hbelow), ?_, ?_, rfl, rfl, rfl,
    fun b hb => s.afterPush_read_ne a hb⟩
  · refine State.x_eq_of_reg_eq fun q => ?_
    rw [State.advance_reg, State.setReg_reg, hincr, State.decSp_sp]
    split
    next hq => subst hq; exact BitVec.sub_add_cancel _ _
    next hq => exact State.afterPush_popInto_reg hwf a hq
  · exact BitVec.add_assoc s.pc 2#9 2#9

/-! ### CALL, then RET -/

/-- Settles O33: RET finds SP one below the old one and the return address in its cell. -/
theorem callThenRetReturnsAfterTheCall : Obligations.CallThenRetReturnsAfterTheCall := by
  intro s t u a hwf hlimit hcall hnofault hsame hcell
  have hreturn := callsReturnAddressIsPcPlusTwo s t a hwf hcall hnofault
  obtain ⟨hfits, hsp, rfl⟩ := exec_call_next hcall hnofault
  have husp : u.reg .sp = s.decSp.reg .sp := hsame
  rw [← hcell] at hreturn
  obtain ⟨hhigh, -⟩ | ⟨-, e⟩ := execRet_cases u
  · have hbelow : (s.decSp.reg .sp).toNat < u.cfg.stackLimit.toNat :=
      Nat.lt_of_succ_le (Nat.le_trans (Nat.le_of_eq (decSp_sp_toNat hsp)) hlimit)
    exact absurd hbelow (Nat.not_lt.2 (husp ▸ hhigh))
  · refine ⟨_, e, ?_, ?_, rfl, rfl⟩
    · apply BitVec.eq_of_toNat_eq
      have hbyte : (u.mem.read (u.reg .sp)).toNat = s.pc.toNat + 2 := by rw [husp]; exact hreturn
      rw [returnAddress] at hfits
      rw [State.jump_pc, toPc_toNat, hbyte, BitVec.toNat_add, BitVec.toNat_ofNat]
      omega
    · change ((u.setReg .sp (u.reg .sp + 1#8)).jump _).reg .sp = s.reg .sp
      rw [State.jump_reg, State.setReg_reg, if_pos rfl, husp, State.decSp_sp]
      exact BitVec.sub_add_cancel _ _

/-! ### The fetch after a PUSH -/

/-- The instruction a fetch gives begins with the byte at pc, in whatever status. -/
theorem opcode_of_fetch {s : State} {i : Instr} (h : fetch s = .ok i) : i.op.opcode = cell s 0 :=
  have ⟨_, hplaced⟩ := placed_of_fetch (s := { s with status := .run }) rfl h
  (cell_zero_of_placed hplaced).symm

/-- Settles O48: the window reads the memory the PUSH left, at the cell SP names. -/
theorem theNextFetchSeesAPush : Obligations.TheNextFetchSeesAPush := by
  intro s t u a k hwf hpush hnofault hmem hk haddr
  obtain ⟨-, rfl⟩ := exec_push_next hpush hnofault
  have hbyte : (BitVec.ofNat 8 (u.pc.toNat + k) : Byte) = (s.afterPush a).reg .sp := by
    rw [haddr]; exact BitVec.ofNat_toNat _ _
  have hcell : cell u k = if a = 7 then (s.afterPush a).x[7] else s.x[a] := by
    rw [cell, hmem, hbyte, State.afterPush_top hwf, State.decSp_reg, ← State.decSp_sp]
    rfl
  have hin : k < u.window.length := by
    have := (s.afterPush a).x[7].isLt
    rw [State.window, Memory.length_readFrom, maxLen]
    omega
  refine ⟨by rw [List.getElem?_eq_getElem hin, getElem_window, hcell], ?_⟩
  rintro i rfl hfetch
  rw [opcode_of_fetch hfetch, hcell]

end Sys2Proof.Machine
end

section
/-! PROOFS. Runs, reset and the host's side (O49, O53, O54, O58). -/

namespace Sys2Proof.Machine

/-- A step adds at most one event, at the end (41_data_and_io.md R145). -/
theorem step_out {s t : State} (h : step s = .next t) : ∃ e : Option Event, t.out = s.out ++ e.toList := by
  obtain ⟨-, ⟨r, -, rfl⟩ | ⟨i, -, ⟨_, _, -, rfl⟩ | heffect⟩⟩ := step_next_cases h
  · exact ⟨none, (List.append_nil _).symm⟩
  · exact ⟨none, (List.append_nil _).symm⟩
  · obtain ⟨e, hout, -⟩ := heffect.commits.output
    exact ⟨e, hout⟩

/-- Settles O53, by induction on the run. -/
theorem outputOnlyGrowsAlongARun : Obligations.OutputOnlyGrowsAlongARun := by
  intro n
  induction n with
  | zero =>
    intro s t h
    obtain rfl := runs_zero.1 h
    exact ⟨⟨[], List.append_nil _⟩, le_rfl⟩
  | succ n ih =>
    intro s t h
    obtain ⟨u, hstep, hrun⟩ := runs_succ.1 h
    obtain ⟨e, hout⟩ := step_out hstep
    obtain ⟨⟨later, hlater⟩, hlength⟩ := ih u t hrun
    have hone : e.toList.length ≤ 1 := by cases e <;> simp
    rw [hout, List.append_assoc] at hlater
    rw [hout, List.length_append] at hlength
    exact ⟨⟨_, hlater⟩, by omega⟩

/-- Settles O49, field by field. -/
theorem resetIsTheSpecsTable : Obligations.ResetIsTheSpecsTable :=
  ⟨by decide, rfl, rfl, rfl, fun _ => rfl, rfl, rfl, rfl, rfl⟩

/-- Settles O54, status by status. -/
theorem exitStatusTellsHaltFromFault : Obligations.ExitStatusTellsHaltFromFault := by
  intro s
  cases h : s.status <;> simp [State.exitStatus, h]

/-- Settles O58. -/
theorem resetRestartsFromEveryStatus : Obligations.ResetRestartsFromEveryStatus :=
  fun _ => ⟨rfl, rfl, step_answers rfl⟩

end Sys2Proof.Machine
end

section
/-! PROOFS. The blocks' signals give what the pseudocode gives (O55). -/

namespace Sys2Proof.Machine

open Sys2Proof.Claims

/-! ### The commit -/

/-- No signal driven. -/
def Signals.quiet : Signals :=
  { w := none, sp := none, fl := none, pc := none, mem := none, out := none, halt := false }

/-- A commit without an event leaves the output. -/
theorem State.commit_of_out_none (s : State) {g : Signals} (h : g.out = none) :
    s.commit g =
      { s with
        x := regFileCommit s.x g.w g.sp
        FL := g.fl.getD s.FL
        pc := g.pc.getD s.pc
        mem := s.mem.serve g.mem
        status := if g.halt then .halted else s.status } := by
  rw [State.commit, h]
  simp

/-! ### The register ports -/

/-- A register's own byte drives its port. -/
@[simp] theorem portIdx_byte (a : Reg) : portIdx a.byte = a := by
  apply Fin.ext
  have := a.isLt
  simp [portIdx]

/-- The engine commits the signals the datapath drives. -/
theorem engine_of_ok {op : Op} {a : Reg} {b2 : Byte} {s : State} {g : Signals}
    (h : datapath op a (portIdx b2) b2 s = .ok g) : engine op a.byte b2 s = .next (s.commit g) := by
  simp only [engine, portIdx_byte, h]

/-- The same, for signals without an event. -/
theorem engine_of_quiet {op : Op} {a : Reg} {b2 : Byte} {s : State} {g : Signals}
    (h : datapath op a (portIdx b2) b2 s = .ok g) (hout : g.out = none) :
    engine op a.byte b2 s = .next
      { s with
        x := regFileCommit s.x g.w g.sp
        FL := g.fl.getD s.FL
        pc := g.pc.getD s.pc
        mem := s.mem.serve g.mem
        status := if g.halt then .halted else s.status } :=
  (engine_of_ok h).trans (congrArg _ (s.commit_of_out_none hout))

/-- The engine takes the fault the datapath raises. -/
theorem engine_of_error {op : Op} {a : Reg} {b2 : Byte} {s : State} {cause : FaultCause} {info : PcWord}
    (h : datapath op a (portIdx b2) b2 s = .error (cause, info)) :
    engine op a.byte b2 s = takeFault op cause info s := by
  simp only [engine, portIdx_byte, h]

/-! ### Instructions that leave the stack_controller idle -/

/-- JUMP's target is x[ra]: there is no decremented SP to forward (40_fetch_decode_execute.md R124). -/
theorem datapath_jump (a b : Reg) (imm : Byte) (s : State) :
    datapath .jump a b imm s = .ok { Signals.quiet with pc := some (s.reg a).toPc } := by
  change Except.ok { Signals.quiet with pc := some (if a = Reg.sp then s.reg a else s.reg a).toPc } = _
  rw [ite_self]

/-- JUMP_IF_EQ goes to x[ra] or advances, by FL's bit 0 (R120). -/
theorem datapath_jumpIfEq (a b : Reg) (imm : Byte) (s : State) :
    datapath .jumpIfEq a b imm s = .ok { Signals.quiet with
      pc := some (if s.flagE = true then (s.reg a).toPc else s.pc + 2#9) } := by
  change Except.ok { Signals.quiet with
    pc := some (if s.flagE then (if a = Reg.sp then s.reg a else s.reg a).toPc else s.pc + 2#9) } = _
  rw [ite_self]

/-- JUMP_IF_NE, the other way round (R120). -/
theorem datapath_jumpIfNe (a b : Reg) (imm : Byte) (s : State) :
    datapath .jumpIfNe a b imm s = .ok { Signals.quiet with
      pc := some (if (!s.flagE) = true then (s.reg a).toPc else s.pc + 2#9) } := by
  change Except.ok { Signals.quiet with
    pc := some (if s.flagE then s.pc + 2#9 else (if a = Reg.sp then s.reg a else s.reg a).toPc) } = _
  rw [ite_self]
  cases s.flagE <;> rfl

/-! ### Instructions of the stack -/

/-- PUSH's part of the stack_controller, from an SP other than 0. -/
theorem stackStage_push_ok {s : State} (h : s.reg .sp ≠ 0#8) (a : Reg) :
    stackStage .push a s = .push (s.reg .sp - 1#8) (s.decSp.reg a) := by
  rw [State.decSp_reg]
  exact (stackStage_push a s).trans (if_neg h)

/-- PUSH from SP = 0. -/
theorem stackStage_push_low {s : State} (h : s.reg .sp = 0#8) (a : Reg) :
    stackStage .push a s = .raise .stackLow 0#9 :=
  (stackStage_push a s).trans (if_pos h)

/-- At a pc that the machine can hold, 9 bits hold CALL's return address (10_state.md R29). -/
theorem returnAddress_toNat {s : State} (hpc : s.pc.toNat ≤ 256) : (s.pc + 2#9).toNat = returnAddress s := by
  rw [BitVec.toNat_add, BitVec.toNat_ofNat, returnAddress]
  omega

/-- The return address as the record's info and as the byte pushed. -/
theorem returnAddress_words {s : State} (hpc : s.pc.toNat ≤ 256) :
    BitVec.ofNat 9 (returnAddress s) = s.pc + 2#9 ∧ BitVec.ofNat 8 (returnAddress s) = (s.pc + 2#9).setWidth 8 := by
  rw [← returnAddress_toNat hpc]
  exact ⟨BitVec.ofNat_toNat _ _, BitVec.ofNat_toNat _ _⟩

/-- A stack fault is the datapath's fault. -/
theorem datapath_of_stack_fault {op : Op} {a b : Reg} {imm : Byte} {s : State} {e : FaultCause × PcWord}
    (halu : op.aluOp = none) (h : (stackStage op a s).fault = some e) : datapath op a b imm s = .error e := by
  simp only [datapath, aluStage, halu, h]

/-- PUSH. -/
theorem engine_push (a : Reg) (b2 : Byte) (s : State) : engine .push a.byte b2 s = exec (.push a.byte) s := by
  by_cases hsp : s.reg .sp = 0#8
  · rw [exec_push_low hsp]
    exact engine_of_error (datapath_of_stack_fault rfl (by rw [stackStage_push_low hsp, StackOut.raise_fault]))
  · have h : datapath .push a (portIdx b2) b2 s = .ok { Signals.quiet with
        sp := some (s.reg .sp - 1#8), pc := some (s.pc + 2#9),
        mem := some { addr := s.reg .sp - 1#8, wdata := some (s.decSp.reg a) } } := by
      simp only [datapath, aluStage, Op.aluOp, stackStage_push_ok hsp]
      rfl
    rw [exec_push_ok hsp, State.decSp_sp]
    exact (engine_of_quiet h rfl).trans rfl

/-- CALL's part of the stack_controller, at a pc that the machine can hold (43_stack.md R213, R214). -/
theorem stackStage_call_eq {s : State} (hpc : s.pc.toNat ≤ 256) (a : Reg) :
    stackStage .call a s =
      if 255 < returnAddress s then .raise .returnRange (BitVec.ofNat 9 (returnAddress s))
      else if s.reg .sp = 0#8 then .raise .stackLow 0#9
      else .push (s.reg .sp - 1#8) (BitVec.ofNat 8 (returnAddress s)) := by
  obtain ⟨hinfo, hbyte⟩ := returnAddress_words hpc
  rw [stackStage_call, returnAddress_toNat hpc, hinfo, hbyte]
  rfl

/-- CALL, at a pc that the machine can hold. -/
theorem engine_call {s : State} (hpc : s.pc.toNat ≤ 256) (a : Reg) (b2 : Byte) :
    engine .call a.byte b2 s = exec (.call a.byte) s := by
  have hstage := stackStage_call_eq hpc a
  obtain ⟨hlong, e⟩ | ⟨hfits, hsp, e⟩ | ⟨hfits, hsp, e⟩ := execCall_cases a s <;> refine Eq.trans ?_ e.symm
  · rw [if_pos hlong] at hstage
    exact engine_of_error (datapath_of_stack_fault rfl (by rw [hstage, StackOut.raise_fault]))
  · rw [if_neg (Nat.not_lt.2 hfits), if_pos hsp] at hstage
    exact engine_of_error (datapath_of_stack_fault rfl (by rw [hstage, StackOut.raise_fault]))
  · rw [if_neg (Nat.not_lt.2 hfits), if_neg hsp] at hstage
    have h : datapath .call a (portIdx b2) b2 s = .ok { Signals.quiet with
        sp := some (s.reg .sp - 1#8), pc := some (s.decSp.reg a).toPc,
        mem := some { addr := s.reg .sp - 1#8, wdata := some (BitVec.ofNat 8 (returnAddress s)) } } := by
      rw [State.decSp_reg]
      simp only [datapath, aluStage, Op.aluOp, hstage]
      rfl
    rw [State.decSp_sp]
    exact (engine_of_quiet h rfl).trans rfl

/-- RET's part of the stack_controller. -/
theorem stackStage_ret_eq (a : Reg) (s : State) :
    stackStage .ret a s = .pop s.cfg.stackLimit (s.reg .sp) (s.reg .sp) (s.mem.read (s.reg .sp)) :=
  stackStage_ret a s

/-- RET, with a register's byte in the field it does not have. -/
theorem engine_ret (a : Reg) (b2 : Byte) (s : State) : engine .ret a.byte b2 s = exec .ret s := by
  have hstage := stackStage_ret_eq a s
  obtain ⟨hsp, e⟩ | ⟨hsp, e⟩ := execRet_cases s <;> refine Eq.trans ?_ e.symm
  · rw [StackOut.pop_high hsp] at hstage
    exact engine_of_error (datapath_of_stack_fault rfl (by rw [hstage]))
  · rw [StackOut.pop_ok (Nat.not_le.2 hsp)] at hstage
    have h : datapath .ret a (portIdx b2) b2 s = .ok { Signals.quiet with
        sp := some (s.reg .sp + 1#8), pc := some (s.mem.read (s.reg .sp)).toPc,
        mem := some { addr := s.reg .sp, wdata := none } } := by
      simp only [datapath, aluStage, Op.aluOp, hstage]
      rfl
    exact (engine_of_quiet h rfl).trans rfl

/-- POP's part of the stack_controller, below the limit: the increment is of the SP that the read leaves behind. -/
theorem stackStage_pop_below {s : State} (hsp : (s.reg .sp).toNat < s.cfg.stackLimit.toNat) (a : Reg) :
    stackStage .pop a s =
      .pop s.cfg.stackLimit (s.reg .sp) ((s.popInto a).reg .sp) (s.mem.read (s.reg .sp)) := by
  refine (stackStage_pop a s).trans ((if_neg (Nat.not_le.2 hsp)).trans ?_)
  by_cases ha : a = .sp
  · subst ha; rw [State.popInto_sp_same]; rfl
  · rw [State.popInto_sp_of_ne s ha, if_neg ha]; rfl

/-- POP. -/
theorem engine_pop (a : Reg) (b2 : Byte) (s : State) : engine .pop a.byte b2 s = exec (.pop a.byte) s := by
  obtain hsp | hsp := Nat.lt_or_ge (s.reg .sp).toNat s.cfg.stackLimit.toNat
  · have hstage := stackStage_pop_below hsp a
    obtain hpop | hpop := Nat.lt_or_ge ((s.popInto a).reg .sp).toNat s.cfg.stackLimit.toNat
    · rw [StackOut.pop_ok (Nat.not_le.2 hpop)] at hstage
      have h : datapath .pop a (portIdx b2) b2 s = .ok { Signals.quiet with
          w := some (a, s.mem.read (s.reg .sp)), sp := some ((s.popInto a).reg .sp + 1#8), pc := some (s.pc + 2#9),
          mem := some { addr := s.reg .sp, wdata := none } } := by
        simp only [datapath, aluStage, Op.aluOp, hstage]
        rfl
      exact (engine_of_quiet h rfl).trans (execPop_ok hsp hpop).symm
    · rw [StackOut.pop_high hpop] at hstage
      exact (engine_of_error (datapath_of_stack_fault rfl (by rw [hstage]))).trans (execPop_popped_high hsp hpop).symm
  · have hstage := (stackStage_pop a s).trans (if_pos hsp)
    exact (engine_of_error (datapath_of_stack_fault rfl (by rw [hstage]; rfl))).trans (execPop_high hsp).symm

/-! ### Every instruction -/

/-- Which register the ports name makes no difference to an instruction without a register field. -/
theorem engine_no_field {op : Op} (h : op = .halt ∨ op = .ret) (b1 b2 : Byte) (s : State) :
    engine op b1 b2 s = exec (op.build b1 b2) s := by
  have hport : engine op b1 b2 s = engine op (portIdx b1).byte b2 s := by
    rw [engine, engine, portIdx_byte]
  rw [hport]
  obtain rfl | rfl := h
  · have h : datapath .halt (portIdx b1) (portIdx b2) b2 s = .ok { Signals.quiet with halt := true } := rfl
    exact (engine_of_quiet h rfl).trans rfl
  · exact engine_ret (portIdx b1) b2 s

/-- On good register fields the blocks' signals and one commit are the instruction's own meaning. -/
theorem engine_eq_exec {op : Op} {b1 b2 : Byte} {s : State} (hpc : s.pc.toNat ≤ 256)
    (hwf : WellFormed (op.build b1 b2)) : engine op b1 b2 s = exec (op.build b1 b2) s := by
  cases op with
  | halt => exact engine_no_field (.inl rfl) b1 b2 s
  | ret => exact engine_no_field (.inr rfl) b1 b2 s
  | printNum =>
    obtain ⟨a, rfl⟩ := byte_of_regFieldOk hwf
    have h : datapath .printNum a (portIdx b2) b2 s = .ok { Signals.quiet with
        pc := some (s.pc + 2#9), out := some { kind := .num, value := s.reg a } } := rfl
    exact (engine_of_ok h).trans (exec_printNum_byte a s).symm
  | printChar =>
    obtain ⟨a, rfl⟩ := byte_of_regFieldOk hwf
    have h : datapath .printChar a (portIdx b2) b2 s = .ok { Signals.quiet with
        pc := some (s.pc + 2#9), out := some { kind := .char, value := s.reg a } } := rfl
    exact (engine_of_ok h).trans (exec_printChar_byte a s).symm
  | store =>
    obtain ⟨a, rfl⟩ := byte_of_regFieldOk hwf
    have h : datapath .store a (portIdx b2) b2 s = .ok { Signals.quiet with
        pc := some (s.pc + 3#9), out := some { kind := .num, value := s.reg a } } := rfl
    exact (engine_of_ok h).trans (exec_store_byte a b2 s).symm
  | loadImm =>
    obtain ⟨a, rfl⟩ := byte_of_regFieldOk hwf
    have h : datapath .loadImm a (portIdx b2) b2 s = .ok { Signals.quiet with
        w := some (a, b2), pc := some (s.pc + 3#9) } := rfl
    exact (engine_of_quiet h rfl).trans (exec_loadImm_byte a b2 s).symm
  | add =>
    obtain ⟨⟨a, rfl⟩, ⟨b, rfl⟩⟩ := bytes_of_regFieldsOk hwf
    have h : datapath .add a (portIdx b.byte) b.byte s = .ok { Signals.quiet with
        w := some (a, aluAdd (s.reg a) (s.reg b)), pc := some (s.pc + 3#9) } := by
      rw [portIdx_byte]; rfl
    exact (engine_of_quiet h rfl).trans (exec_add_byte a b s).symm
  | mul =>
    obtain ⟨⟨a, rfl⟩, ⟨b, rfl⟩⟩ := bytes_of_regFieldsOk hwf
    have h : datapath .mul a (portIdx b.byte) b.byte s = .ok { Signals.quiet with
        w := some (a, aluMul (s.reg a) (s.reg b)), pc := some (s.pc + 3#9) } := by
      rw [portIdx_byte]; rfl
    exact (engine_of_quiet h rfl).trans (exec_mul_byte a b s).symm
  | compare =>
    obtain ⟨⟨a, rfl⟩, ⟨b, rfl⟩⟩ := bytes_of_regFieldsOk hwf
    have h : datapath .compare a (portIdx b.byte) b.byte s = .ok { Signals.quiet with
        fl := some (compareFlags (s.reg a) (s.reg b)), pc := some (s.pc + 3#9) } := by
      rw [portIdx_byte]; rfl
    exact (engine_of_quiet h rfl).trans (exec_compare_byte a b s).symm
  | jump =>
    obtain ⟨a, rfl⟩ := byte_of_regFieldOk hwf
    exact (engine_of_quiet (datapath_jump a _ b2 s) rfl).trans (exec_jump_byte a s).symm
  | jumpIfEq =>
    obtain ⟨a, rfl⟩ := byte_of_regFieldOk hwf
    refine Eq.trans ?_ (exec_jumpIfEq_byte a s).symm
    rw [State.branch_eq]
    exact engine_of_quiet (datapath_jumpIfEq a _ b2 s) rfl
  | jumpIfNe =>
    obtain ⟨a, rfl⟩ := byte_of_regFieldOk hwf
    refine Eq.trans ?_ (exec_jumpIfNe_byte a s).symm
    rw [State.branch_eq]
    exact engine_of_quiet (datapath_jumpIfNe a _ b2 s) rfl
  | push =>
    obtain ⟨a, rfl⟩ := byte_of_regFieldOk hwf
    exact engine_push a b2 s
  | pop =>
    obtain ⟨a, rfl⟩ := byte_of_regFieldOk hwf
    exact engine_pop a b2 s
  | call =>
    obtain ⟨a, rfl⟩ := byte_of_regFieldOk hwf
    exact engine_call hpc a b2

/-- Settles O55: both take BAD_REGISTER on the field the check reports, and agree on good ones. -/
theorem datapathAgreesWithThePseudocode : Obligations.DatapathAgreesWithThePseudocode := by
  intro op b1 b2 s hpc
  cases hfields : op.badField? b1 b2 with
  | some f =>
    rw [exec_build_bad hfields]
    simp only [datapathExec, hfields]
  | none =>
    rw [← engine_eq_exec hpc ((badField_none_iff op b1 b2).1 hfields)]
    simp only [datapathExec, hfields]

end Sys2Proof.Machine
end

section
/-! PROOFS. The blocks joined by their ports take the step, and the accesses they make (O56, O57). -/

namespace Sys2Proof.Machine

open Sys2Proof.Claims

/-! ### fetch_unit and decoder in their loop -/

/-- Without an opcode the loop ends at once (40_fetch_decode_execute.md R105). -/
theorem fetchLoop_of_no_opcode {s : State}
    (h : (fetchUnit s.cfg.strictFetchWindow s.pc none s.mem.read).opOut = none) :
    fetchLoop s = fetchUnit s.cfg.strictFetchWindow s.pc none s.mem.read := by
  simp only [fetchLoop, h, Option.bind_none]

/-- On a pc that names no cell (R103). -/
theorem fetchLoop_pcRange {s : State} (hpc : 256 ≤ s.pc.toNat) :
    fetchLoop s = { memAddrs := [], opOut := none, b1Out := none, b2Out := none, fault := some s.pc } := by
  have h := fetchUnit_pc_range (strict := s.cfg.strictFetchWindow) hpc none s.mem.read
  rw [fetchLoop_of_no_opcode (by rw [h]), h]

/-- Where the strict window ends past memory (R104). -/
theorem fetchLoop_strictRange {s : State} (hpc : s.pc.toNat < 256) (hstrict : s.cfg.strictFetchWindow = true)
    (hend : 256 ≤ s.pc.toNat + 2) :
    fetchLoop s = { memAddrs := [], opOut := none, b1Out := none, b2Out := none, fault := some 256#9 } := by
  have h := fetchUnit_strict (Nat.not_le.2 hpc) hend none s.mem.read
  rw [← hstrict] at h
  rw [fetchLoop_of_no_opcode (by rw [h]), h]

/-- The opcode alone, with or without a fault of the operands. -/
def opcodeOnly (s : State) (fault : Option PcWord) : FetchOut :=
  { memAddrs := [fetchAddr s.pc 0], opOut := some (cell s 0), b1Out := none, b2Out := none, fault := fault }

/-- fetch_unit before the decoder has answered (R102). -/
theorem fetchUnit_opcode {s : State} (h : OpcodeFetched s) :
    fetchUnit s.cfg.strictFetchWindow s.pc none s.mem.read = opcodeOnly s none :=
  fetchUnit_ok (Nat.not_le.2 h.pc_lt) h.strict_in_memory none s.mem.read

/-- An opcode the decoder does not know is all that is fetched (R106). -/
theorem fetchLoop_unknownOpcode {s : State} (h : OpcodeFetched s) (hop : cell s 0 ∉ opcodes) :
    fetchLoop s = opcodeOnly s none := by
  have hnone : Op.ofByte? (cell s 0) = none := by
    rwa [← ofByte_isSome_iff, Option.not_isSome_iff_eq_none] at hop
  simp only [fetchLoop, fetchUnit_opcode h, opcodeOnly, Option.bind_some, decoder_invalid hnone]

/-- An operation's opcode is answered with its length, for which fetch_unit then reads (R102). -/
theorem fetchLoop_opcode {s : State} (h : OpcodeFetched s) {op : Op} (hop : cell s 0 = op.opcode) :
    fetchLoop s = fetchUnit s.cfg.strictFetchWindow s.pc (some (BitVec.ofNat 2 op.len)) s.mem.read := by
  simp only [fetchLoop, fetchUnit_opcode h, opcodeOnly, Option.bind_some, hop, decoder_opcode]

/-- The two bits of len hold the length. -/
theorem len_toNat (op : Op) : (BitVec.ofNat 2 op.len).toNat = op.len := by
  cases op <;> rfl

/-- An operand past memory leaves the opcode alone (R103). -/
theorem fetchLoop_operandRange {s : State} (h : OpcodeFetched s) {op : Op} (hop : cell s 0 = op.opcode)
    (hend : 256 < s.pc.toNat + op.len) : fetchLoop s = opcodeOnly s (some 256#9) := by
  rw [fetchLoop_opcode h hop, fetchUnit_ok (Nat.not_le.2 h.pc_lt) h.strict_in_memory]
  simp only [len_toNat, hend, if_true]
  rfl

/-- An instruction that ends in memory is fetched whole (R102). -/
theorem fetchLoop_instr {s : State} (h : OpcodeFetched s) {op : Op} (hop : cell s 0 = op.opcode)
    (hend : s.pc.toNat + op.len ≤ 256) :
    fetchLoop s =
      { memAddrs := (List.range op.len).map (fetchAddr s.pc)
        opOut := some op.opcode
        b1Out := if 2 ≤ op.len then some (cell s 1) else none
        b2Out := if op.len = 3 then some (cell s 2) else none
        fault := none } := by
  rw [fetchLoop_opcode h hop, fetchUnit_ok (Nat.not_le.2 h.pc_lt) h.strict_in_memory, ← hop]
  simp only [len_toNat, Nat.not_lt.2 hend, if_false]
  obtain ⟨hlow, hhigh⟩ := len_bounds op
  obtain hlen | hlen | hlen : op.len = 1 ∨ op.len = 2 ∨ op.len = 3 := by omega
  all_goals rw [hlen]; rfl

/-! ### The front end -/

/-- The front end on a pc that names no cell (R103). -/
theorem frontEnd_pcRange {s : State} (hpc : 256 ≤ s.pc.toNat) :
    frontEnd s = .error { cause := .fetchRange, opcode := 0#8, info := s.pc } := by
  rw [frontEnd, fetchLoop_pcRange hpc]
  rfl

/-- Where the strict window ends past memory (R104). -/
theorem frontEnd_strictRange {s : State} (hpc : s.pc.toNat < 256) (hstrict : s.cfg.strictFetchWindow = true)
    (hend : 256 ≤ s.pc.toNat + 2) :
    frontEnd s = .error { cause := .fetchRange, opcode := 0#8, info := 256#9 } := by
  rw [frontEnd, fetchLoop_strictRange hpc hstrict hend]
  rfl

/-- On an opcode byte outside the fifteen (R106). -/
theorem frontEnd_unknownOpcode {s : State} (h : OpcodeFetched s) (hop : cell s 0 ∉ opcodes) :
    frontEnd s = .error { cause := .unknownOpcode, opcode := cell s 0, info := 0#9 } := by
  have hnone : Op.ofByte? (cell s 0) = none := by
    rwa [← ofByte_isSome_iff, Option.not_isSome_iff_eq_none] at hop
  simp only [frontEnd, fetchLoop_unknownOpcode h hop, opcodeOnly, decoder_invalid hnone]

/-- On an operand past memory (R103). -/
theorem frontEnd_operandRange {s : State} (h : OpcodeFetched s) {op : Op} (hop : cell s 0 = op.opcode)
    (hend : 256 < s.pc.toNat + op.len) :
    frontEnd s = .error { cause := .fetchRange, opcode := op.opcode, info := 256#9 } := by
  simp only [frontEnd, fetchLoop_operandRange h hop hend, opcodeOnly, hop, decoder_opcode]

/-- A byte 1 that fetch_unit has not fetched counts as 0 (R126). -/
theorem getD_b1Out (s : State) (op : Op) :
    (if 2 ≤ op.len then some (cell s 1) else none).getD 0#8 = s.operand1 op := by
  rw [State.operand1]
  split <;> rfl

/-- A byte 2, likewise. -/
theorem getD_b2Out (s : State) (op : Op) :
    (if op.len = 3 then some (cell s 2) else none).getD 0#8 = s.operand2 op := by
  rw [State.operand2]
  split <;> rfl

/-- On a bad register field of an instruction that ends in memory (R111). -/
theorem frontEnd_badRegister {s : State} (h : OpcodeFetched s) {op : Op} (hop : cell s 0 = op.opcode)
    (hend : s.pc.toNat + op.len ≤ 256) {f : Byte} (hfields : op.badField? (s.operand1 op) (s.operand2 op) = some f) :
    frontEnd s = .error { cause := .badRegister, opcode := op.opcode, info := f.toPc } := by
  simp only [frontEnd, fetchLoop_instr h hop hend, decoder_opcode, getD_b1Out, getD_b2Out, hfields]

/-- On good register fields: the operation and its operand bytes (R112). -/
theorem frontEnd_instr {s : State} (h : OpcodeFetched s) {op : Op} (hop : cell s 0 = op.opcode)
    (hend : s.pc.toNat + op.len ≤ 256) (hfields : op.badField? (s.operand1 op) (s.operand2 op) = none) :
    frontEnd s = .ok (op, s.operand1 op, s.operand2 op) := by
  simp only [frontEnd, fetchLoop_instr h hop hend, decoder_opcode, getD_b1Out, getD_b2Out, hfields]

/-- The front end answers as the fetch does. -/
theorem frontEnd_of_fetches {s : State} {r : Except Raise Instr} (h : Fetches s r) :
    (∃ e, r = .error e ∧ frontEnd s = .error e) ∨
      ∃ op b1 b2, op.badField? b1 b2 = none ∧ r = .ok (op.build b1 b2) ∧ frontEnd s = .ok (op, b1, b2) := by
  cases h with
  | pcRange hpc => exact .inl ⟨_, rfl, frontEnd_pcRange hpc⟩
  | strictRange hpc hstrict hend => exact .inl ⟨_, rfl, frontEnd_strictRange hpc hstrict hend⟩
  | unknownOpcode hfetched hop => exact .inl ⟨_, rfl, frontEnd_unknownOpcode hfetched hop⟩
  | operandRange op hfetched hop hend => exact .inl ⟨_, rfl, frontEnd_operandRange hfetched hop hend⟩
  | badRegister op f hfetched hop hend hfields =>
    exact .inl ⟨_, rfl, frontEnd_badRegister hfetched hop hend hfields⟩
  | instr op hfetched hop hend hfields =>
    exact .inr ⟨op, _, _, hfields, rfl, frontEnd_instr hfetched hop hend hfields⟩

/-- Settles O56: the front end answers as the fetch, and the engine as the instruction, whose pc names a cell. -/
theorem theBlocksTakeTheStep : Obligations.TheBlocksTakeTheStep := by
  intro s
  cases hstatus : s.status with
  | halted => simp only [portStep, step, hstatus]
  | faulted => simp only [portStep, step, hstatus]
  | run =>
    obtain ⟨e, hfetch, hfront⟩ | ⟨op, b1, b2, hfields, hfetch, hfront⟩ := frontEnd_of_fetches (fetches hstatus)
    · simp only [portStep, step, hstatus, hfetch, hfront]
    · have hwf := (badField_none_iff op b1 b2).1 hfields
      obtain ⟨-, ⟨⟨-, hpc, -⟩, -, -⟩⟩ := placed_of_fetch hstatus hfetch
      simp only [portStep, step, hstatus, hfetch, hfront]
      exact engine_eq_exec hpc.le hwf

/-! ### The accesses at the memory port -/

/-- A step that faults in fetch or decode makes the fetch's reads alone. -/
theorem stepAccesses_of_error {s : State} {e : Raise} (h : frontEnd s = .error e) :
    stepAccesses s = (fetchLoop s).memAddrs.map fun a => { addr := a, wdata := none } := by
  simp only [stepAccesses, h, List.append_nil]

/-- The reads of an instruction fetched whole. -/
theorem fetchReads_of_instr {s : State} (h : OpcodeFetched s) {op : Op} (hop : cell s 0 = op.opcode)
    (hend : s.pc.toNat + op.len ≤ 256) :
    ((fetchLoop s).memAddrs.map fun a => ({ addr := a, wdata := none } : MemAccess)) = fetchReads s op.len := by
  rw [fetchLoop_instr h hop hend, List.map_map]
  rfl

/-- A register's byte is 7 for R7 alone. -/
theorem byte_eq_seven_iff (a : Reg) : a.byte = 7#8 ↔ a = 7 := by
  revert a; decide

/-- The stack_controller's access is the one the tables give the instruction (20_memory.md R56, R68). -/
theorem stackStage_accesses {op : Op} {b1 b2 : Byte} {s : State} (hpc : s.pc.toNat ≤ 256)
    (hwf : WellFormed (op.build b1 b2)) :
    (stackStage op (portIdx b1) s).mem.toList = stackAccesses (op.build b1 b2) s := by
  cases op
  case push =>
    obtain ⟨a, rfl⟩ := byte_of_regFieldOk hwf
    rw [portIdx_byte, stackStage_push, Op.build, stackAccesses]
    simp only [byte_eq_seven_iff, portIdx_byte]
    split <;> rfl
  case pop =>
    rw [stackStage_pop, Op.build, stackAccesses]
    split
    · rfl
    · rw [StackOut.pop_mem]; rfl
  case call =>
    rw [stackStage_call_eq hpc, Op.build, stackAccesses]
    by_cases hlong : 255 < returnAddress s
    · rw [if_pos hlong, if_pos (.inl hlong)]; rfl
    · by_cases hsp : s.reg .sp = 0#8
      · rw [if_neg hlong, if_pos hsp, if_pos (.inr hsp)]; rfl
      · rw [if_neg hlong, if_neg hsp]; exact (if_neg (not_or.2 ⟨hlong, hsp⟩)).symm
  case ret =>
    rw [stackStage_ret, StackOut.pop_mem]
    rfl
  all_goals
    rw [stackStage_idle rfl]
    rfl

/-- A step of a placed instruction reads its bytes and then makes its stack access. -/
theorem stepAccesses_of_placed {s : State} {i : Instr} (hwf : WellFormed i) (h : Placed s (encode i)) :
    stepAccesses s = fetchReads s i.op.len ++ stackAccesses i s := by
  have hfetched : OpcodeFetched s := h.1
  have hfetch := fetches hfetched.run
  rw [fetch_of_placed hwf h] at hfetch
  cases hfetch with
  | instr op _ hop hend hfields =>
    have hfront := frontEnd_instr hfetched hop hend hfields
    simp only [stepAccesses, hfront, fetchReads_of_instr hfetched hop hend, build_op]
    rw [stackStage_accesses hfetched.pc_lt.le hwf]

/-- Settles O57, by what the loop of fetch_unit and decoder fetched and the front end answered. -/
theorem memoryPortAccessesOfAStep : Obligations.MemoryPortAccessesOfAStep := by
  refine ⟨fun s _ hpc => ?_, fun s _ hpc hstrict hend => ?_, fun s hfetched hop => ?_, fun s hfetched hop hend => ?_,
    fun s hfetched hop hend hbad => ?_, fun s i hwf hplaced => stepAccesses_of_placed hwf hplaced⟩
  · rw [stepAccesses_of_error (frontEnd_pcRange hpc), fetchLoop_pcRange hpc]
    rfl
  · rw [stepAccesses_of_error (frontEnd_strictRange hpc hstrict hend), fetchLoop_strictRange hpc hstrict hend]
    rfl
  · rw [stepAccesses_of_error (frontEnd_unknownOpcode hfetched hop), fetchLoop_unknownOpcode hfetched hop]
    rfl
  · obtain ⟨op, hop⟩ := mem_opcodes_iff.1 hop
    rw [← hop, lenOf_opcode] at hend
    rw [stepAccesses_of_error (frontEnd_operandRange hfetched hop.symm hend),
      fetchLoop_operandRange hfetched hop.symm hend]
    rfl
  · obtain ⟨op, hop⟩ := mem_opcodes_iff.1 hop
    rw [← hop, lenOf_opcode] at hend ⊢
    rw [← hop, usesRaOf_opcode, usesRbOf_opcode] at hbad
    have hfields : op.badField? (s.operand1 op) (s.operand2 op) ≠ none := by
      refine badField_ne_none (hbad.imp (fun ⟨hra, h⟩ => ⟨hra, ?_⟩) fun ⟨hrb, h⟩ => ⟨hrb, ?_⟩)
      · rwa [s.operand1_of_usesRa hra]
      · rwa [s.operand2_of_usesRb hrb]
    obtain ⟨f, hf⟩ := Option.ne_none_iff_exists'.1 hfields
    rw [stepAccesses_of_error (frontEnd_badRegister hfetched hop.symm hend hf),
      fetchReads_of_instr hfetched hop.symm hend]

end Sys2Proof.Machine
end
